-- ==== Sys2Proof/Word.lean ====
section
/-! DEFINITION. The machine's word, its register index, and an exact span of time.

The byte is the one width of registers and memory cells (rules R7, R10, R22). The timer accumulator is
a non-negative rational number of seconds (R32), so time has a type of its own. -/

namespace Sys2Proof

/-- An 8-bit cell: a register, a memory cell, the flags register (R7, R10). -/
abbrev Byte := BitVec 8

/-- The index of a general register, 0 to 7 (R20). -/
abbrev Reg := Fin 8

/-- The number of an interrupt line, 0 to 7 (R7, R230). -/
abbrev Line := Fin 8

/-- A span of time in seconds, the fraction `num / den` (R32, R40: a non-negative rational).
It is kept in lowest terms with a positive denominator (`Seconds.wf`), so that equal times are equal data. -/
structure Seconds where
  num : Nat
  den : Nat
  deriving DecidableEq, Repr

/-- The fraction is in lowest terms and its denominator is positive. -/
abbrev Seconds.wf (t : Seconds) : Prop := 0 < t.den ∧ Nat.gcd t.num t.den = 1

/-- The rational number a span of time stands for. -/
def Seconds.toRat (t : Seconds) : ℚ := (t.num : ℚ) / (t.den : ℚ)

end Sys2Proof
end

