-- ==== Sys2Proof/Config.lean ====
section
/-! DEFINITION. What one implementation fixes: the named parameters of rule R8, as plain data.

Rule R9 lets a model take any of them as an argument. Here they are a structure that the machine carries
unchanged (`State.params`), so that a claim about all states is a claim about every choice of them.
The values the spec gives as defaults are `Params.default` in Decode.lean. -/

namespace Sys2Proof

/-- The two readings of JGE and JLE (R178, D16): by the bits of FL, or as "FL is not the opposite flag". -/
inductive CondReading where
  | bits
  | notLess
  deriving DecidableEq, Repr

/-- The parameter `OPC` of R8: the opcode byte of each of the 34 mnemonics of the table of R76. -/
structure OpcodeMap where
  nop : Byte
  hlt : Byte
  ret : Byte
  iret : Byte
  push : Byte
  pop : Byte
  prn : Byte
  pra : Byte
  call : Byte
  int : Byte
  jmp : Byte
  jeq : Byte
  jne : Byte
  jgt : Byte
  jlt : Byte
  jle : Byte
  jge : Byte
  inc : Byte
  dec : Byte
  not : Byte
  ldi : Byte
  ld : Byte
  st : Byte
  add : Byte
  sub : Byte
  mul : Byte
  div : Byte
  mod : Byte
  cmp : Byte
  and : Byte
  or : Byte
  xor : Byte
  shl : Byte
  shr : Byte
  deriving DecidableEq, Repr

/-- The named parameters of R8, but for `MSG_TEXT`, which stays open (`Config.msgText`). -/
structure Params where
  /-- `SP_REG`: the register that holds the stack pointer. -/
  spReg : Reg
  /-- `IM_REG`: the register that holds the interrupt mask. -/
  imReg : Reg
  /-- `IS_REG`: the register that holds the interrupt status. -/
  isReg : Reg
  /-- `SP_INIT`: the reset value of the stack pointer. -/
  spInit : Byte
  /-- `FL_E`: the bit of FL that says "equal". -/
  flE : Fin 3
  /-- `FL_G`: the bit of FL that says "greater". -/
  flG : Fin 3
  /-- `FL_L`: the bit of FL that says "less". -/
  flL : Fin 3
  /-- `VT_BASE`: the address of interrupt vector slot 0. -/
  vtBase : Byte
  /-- `OPC`: the opcode values. -/
  opc : OpcodeMap
  /-- `ADMIT_UNCONFIRMED`: whether NOP, JMP, LD and ST execute. -/
  admitUnconfirmed : Bool
  /-- `COND_READING`: the reading of JGE and JLE. -/
  condReading : CondReading
  /-- `INT_SETS_ELIG`: whether INT sets the eligibility latch. -/
  intSetsElig : Bool
  deriving DecidableEq, Repr

/-- What a memory cell that nothing has written reads as: memory is zero at reset (R260, R33). -/
def Config.unlistedByte : Byte := 0#8

/-- The elapsed time of the cycles for which no time input is given, by the number of inputs taken before: `n / (d + 1)`
seconds for the pair `(n, d)`. The time input is free in every cycle, under no law (R232), so this has no body, and a
claim holds whatever the times are. Log entry 4. -/
opaque Config.freeElapsed : Nat → Nat × Nat

/-- `TIMER_LINE`: the interrupt line of the timer (R7, R231). -/
def Config.timerLine : Line := 0

end Sys2Proof
end

