-- ==== Sys2Proof/Syntax.lean ====
section
/-! DEFINITION. The syntax of the instruction set: the mnemonics, the operand formats and the instructions.

One constructor of `Instr` for each of the 34 rows of the table of rule R76. An operand is the raw byte
that follows the opcode (R73): rule R79 says an operand byte never changes which instruction is selected,
and rule R12 makes a register operand byte of 8 or more a fault of the instruction. -/

namespace Sys2Proof

/-- The mnemonics of the opcode table, in its order (R76). -/
inductive Mnemonic where
  | nop
  | hlt
  | ret
  | iret
  | push
  | pop
  | prn
  | pra
  | call
  | int
  | jmp
  | jeq
  | jne
  | jgt
  | jlt
  | jle
  | jge
  | inc
  | dec
  | not
  | ldi
  | ld
  | st
  | add
  | sub
  | mul
  | div
  | mod
  | cmp
  | and
  | or
  | xor
  | shl
  | shr
  deriving DecidableEq, Repr

/-- The operand formats (R73): none, one register, two registers, a register and an immediate. -/
inductive Format where
  | F0
  | F1R
  | F2RR
  | F2RI
  deriving DecidableEq, Repr

/-- The instructions: the operands `rA`, `rB` are register operand bytes, `imm` is a byte used as a value. -/
inductive Instr where
  /-- NOP: no operation (R211). -/
  | nop
  /-- HLT: halt (R110). -/
  | hlt
  /-- RET: return from a subroutine (R175). -/
  | ret
  /-- IRET: return from interrupt (R201). -/
  | iret
  /-- PUSH: push a register (R172). -/
  | push (rA : Byte)
  /-- POP: pop into a register (R173). -/
  | pop (rA : Byte)
  /-- PRN: print numeric (R112). -/
  | prn (rA : Byte)
  /-- PRA: print alpha (R113). -/
  | pra (rA : Byte)
  /-- CALL: call a subroutine (R174). -/
  | call (rA : Byte)
  /-- INT: software interrupt (R200). -/
  | int (rA : Byte)
  /-- JMP: unconditional jump (R212). -/
  | jmp (rA : Byte)
  /-- JEQ: jump if equal (R180). -/
  | jeq (rA : Byte)
  /-- JNE: jump if not equal (R181). -/
  | jne (rA : Byte)
  /-- JGT: jump if greater (R182). -/
  | jgt (rA : Byte)
  /-- JLT: jump if less (R183). -/
  | jlt (rA : Byte)
  /-- JLE: jump if less or equal (R185). -/
  | jle (rA : Byte)
  /-- JGE: jump if greater or equal (R184). -/
  | jge (rA : Byte)
  /-- INC: increment (R135). -/
  | inc (rA : Byte)
  /-- DEC: decrement (R136). -/
  | dec (rA : Byte)
  /-- NOT: bitwise complement (R137). -/
  | not (rA : Byte)
  /-- LDI: load immediate (R111). -/
  | ldi (rA imm : Byte)
  /-- LD: load register from memory (R213). -/
  | ld (rA rB : Byte)
  /-- ST: store register to memory (R214). -/
  | st (rA rB : Byte)
  /-- ADD: add (R130). -/
  | add (rA rB : Byte)
  /-- SUB: subtract (R131). -/
  | sub (rA rB : Byte)
  /-- MUL: multiply (R132). -/
  | mul (rA rB : Byte)
  /-- DIV: integer divide (R133). -/
  | div (rA rB : Byte)
  /-- MOD: modulo (R134). -/
  | mod (rA rB : Byte)
  /-- CMP: compare (R143). -/
  | cmp (rA rB : Byte)
  /-- AND: bitwise AND (R138). -/
  | and (rA rB : Byte)
  /-- OR: bitwise OR (R139). -/
  | or (rA rB : Byte)
  /-- XOR: bitwise exclusive OR (R140). -/
  | xor (rA rB : Byte)
  /-- SHL: shift left (R141). -/
  | shl (rA rB : Byte)
  /-- SHR: shift right, logical (R142). -/
  | shr (rA rB : Byte)
  deriving DecidableEq, Repr

end Sys2Proof
end

