-- ==== Sys2Proof/WellFormed.lean ====
section
/-! DEFINITION. Which instructions are well formed: every register operand byte is in 0..7 (rules R12, R74).

An immediate may be any byte (R75). An ill-formed instruction still has a meaning: it raises
`BadRegisterIndex` (R223). -/

namespace Sys2Proof

/-- The register operand bytes of an instruction, in the order in which they are checked (R74: `rA`, then `rB`). -/
def Instr.registerOperands : Instr → List Byte
  | .nop => []
  | .hlt => []
  | .ret => []
  | .iret => []
  | .push rA => [rA]
  | .pop rA => [rA]
  | .prn rA => [rA]
  | .pra rA => [rA]
  | .call rA => [rA]
  | .int rA => [rA]
  | .jmp rA => [rA]
  | .jeq rA => [rA]
  | .jne rA => [rA]
  | .jgt rA => [rA]
  | .jlt rA => [rA]
  | .jle rA => [rA]
  | .jge rA => [rA]
  | .inc rA => [rA]
  | .dec rA => [rA]
  | .not rA => [rA]
  | .ldi rA _ => [rA]
  | .ld rA rB => [rA, rB]
  | .st rA rB => [rA, rB]
  | .add rA rB => [rA, rB]
  | .sub rA rB => [rA, rB]
  | .mul rA rB => [rA, rB]
  | .div rA rB => [rA, rB]
  | .mod rA rB => [rA, rB]
  | .cmp rA rB => [rA, rB]
  | .and rA rB => [rA, rB]
  | .or rA rB => [rA, rB]
  | .xor rA rB => [rA, rB]
  | .shl rA rB => [rA, rB]
  | .shr rA rB => [rA, rB]

/-- Every register operand names a register. -/
def Instr.wf (i : Instr) : Bool := i.registerOperands.all fun r => decide (r.toNat < 8)

end Sys2Proof
end

