-- ==== Sys2Proof/Decode.lean ====
section
/-! DEFINITION. Decoding and encoding (rules R70 to R80), from the opcode table of rule R76.

`decode` is total on any bytes and names what it rejects, in the order of rule R225. `encode` is written
from the same table. Both take the parameters of rule R8, of which they use `OPC` and `ADMIT_UNCONFIRMED`. -/

namespace Sys2Proof

/-- The operand format of each mnemonic (R76). -/
def Mnemonic.format : Mnemonic → Format
  | .nop => .F0
  | .hlt => .F0
  | .ret => .F0
  | .iret => .F0
  | .push => .F1R
  | .pop => .F1R
  | .prn => .F1R
  | .pra => .F1R
  | .call => .F1R
  | .int => .F1R
  | .jmp => .F1R
  | .jeq => .F1R
  | .jne => .F1R
  | .jgt => .F1R
  | .jlt => .F1R
  | .jle => .F1R
  | .jge => .F1R
  | .inc => .F1R
  | .dec => .F1R
  | .not => .F1R
  | .ldi => .F2RI
  | .ld => .F2RR
  | .st => .F2RR
  | .add => .F2RR
  | .sub => .F2RR
  | .mul => .F2RR
  | .div => .F2RR
  | .mod => .F2RR
  | .cmp => .F2RR
  | .and => .F2RR
  | .or => .F2RR
  | .xor => .F2RR
  | .shl => .F2RR
  | .shr => .F2RR

/-- The number of operand bytes of a format (R73). -/
def Format.operandCount : Format → Nat
  | .F0 => 0
  | .F1R => 1
  | .F2RR => 2
  | .F2RI => 2

/-- Whether the source names the instruction (R76, the column "class"): all but NOP, JMP, LD and ST. -/
def Mnemonic.confirmed : Mnemonic → Bool
  | .nop | .jmp | .ld | .st => false
  | .hlt | .ret | .iret | .push | .pop | .prn | .pra | .call | .int | .jeq | .jne | .jgt | .jlt | .jle | .jge | .inc | .dec | .not | .ldi | .add | .sub | .mul | .div | .mod | .cmp | .and | .or | .xor | .shl | .shr => true

/-- Every mnemonic, in the order of the table of R76. -/
def Mnemonic.all : List Mnemonic :=
  [.nop, .hlt, .ret, .iret, .push, .pop, .prn, .pra, .call, .int, .jmp, .jeq, .jne, .jgt, .jlt, .jle, .jge] ++
  [.inc, .dec, .not, .ldi, .ld, .st, .add, .sub, .mul, .div, .mod, .cmp, .and, .or, .xor, .shl, .shr]

/-- `OPC(m)`: the opcode byte a map gives a mnemonic (R8). -/
def OpcodeMap.value (t : OpcodeMap) : Mnemonic → Byte
  | .nop => t.nop
  | .hlt => t.hlt
  | .ret => t.ret
  | .iret => t.iret
  | .push => t.push
  | .pop => t.pop
  | .prn => t.prn
  | .pra => t.pra
  | .call => t.call
  | .int => t.int
  | .jmp => t.jmp
  | .jeq => t.jeq
  | .jne => t.jne
  | .jgt => t.jgt
  | .jlt => t.jlt
  | .jle => t.jle
  | .jge => t.jge
  | .inc => t.inc
  | .dec => t.dec
  | .not => t.not
  | .ldi => t.ldi
  | .ld => t.ld
  | .st => t.st
  | .add => t.add
  | .sub => t.sub
  | .mul => t.mul
  | .div => t.div
  | .mod => t.mod
  | .cmp => t.cmp
  | .and => t.and
  | .or => t.or
  | .xor => t.xor
  | .shl => t.shl
  | .shr => t.shr

/-- The opcode values of the table of R76 (the LS-8 defaults of `OPC`). -/
def OpcodeMap.ls8 : OpcodeMap where
  nop := 0x00#8
  hlt := 0x01#8
  ret := 0x11#8
  iret := 0x13#8
  push := 0x45#8
  pop := 0x46#8
  prn := 0x47#8
  pra := 0x48#8
  call := 0x50#8
  int := 0x52#8
  jmp := 0x54#8
  jeq := 0x55#8
  jne := 0x56#8
  jgt := 0x57#8
  jlt := 0x58#8
  jle := 0x59#8
  jge := 0x5A#8
  inc := 0x65#8
  dec := 0x66#8
  not := 0x69#8
  ldi := 0x82#8
  ld := 0x83#8
  st := 0x84#8
  add := 0xA0#8
  sub := 0xA1#8
  mul := 0xA2#8
  div := 0xA3#8
  mod := 0xA4#8
  cmp := 0xA7#8
  and := 0xA8#8
  or := 0xAA#8
  xor := 0xAB#8
  shl := 0xAC#8
  shr := 0xAD#8

/-- The defaults of R8, as the spec gives them: NOP, JMP, LD and ST are not admitted. -/
def Params.default : Params where
  spReg := 7
  imReg := 5
  isReg := 6
  spInit := 0xF4#8
  flE := 0
  flG := 1
  flL := 2
  vtBase := 0xF8#8
  opc := OpcodeMap.ls8
  admitUnconfirmed := false
  condReading := .bits
  intSetsElig := true

/-- The parameters the model resets with: the defaults of R8, but `ADMIT_UNCONFIRMED = true`, which R9 and
R210 allow, so that all 34 instructions run. DESIGN CHOICE, log entry 1. -/
def Params.admitting : Params := { Params.default with admitUnconfirmed := true }

/-- `op[7:6]`: the operand count that the opcode byte itself holds (R70). -/
def operandCountOf (op : Byte) : Nat := (op >>> 6).toNat

/-- `W = op[7:6] + 1`: the width of an instruction in bytes (R71, R92). -/
def widthOf (op : Byte) : Nat := operandCountOf op + 1

/-- The constraints of R8 on the parameters: distinct reserved registers, distinct flag bits, opcode bytes
whose top two bits are the operand count. Two more are read from other rules (DEDUCED, log entry 2): the
opcode bytes are distinct, or `Lookup` of R77 would have two answers, and the eight vector slots lie in
memory, or an interrupt entry could fault in a way that R234 (c) excludes. -/
abbrev Params.wf (p : Params) : Prop :=
  p.spReg ≠ p.imReg ∧ p.spReg ≠ p.isReg ∧ p.imReg ≠ p.isReg ∧
  p.flE ≠ p.flG ∧ p.flE ≠ p.flL ∧ p.flG ≠ p.flL ∧
  (∀ m ∈ Mnemonic.all, operandCountOf (p.opc.value m) = m.format.operandCount) ∧
  (Mnemonic.all.map p.opc.value).Nodup ∧
  p.vtBase.toNat ≤ 248

/-- `Lookup(op)`: the row of the table whose opcode is `op` (R77). -/
def lookup (t : OpcodeMap) (op : Byte) : Option Mnemonic :=
  Mnemonic.all.find? fun m => t.value m == op

/-- Why bytes do not decode, in the order of R225. -/
inductive Reject where
  /-- There is no opcode byte. -/
  | noOpcodeByte
  /-- The opcode byte has no row in the table (R78). -/
  | unknownOpcode (op : Byte)
  /-- The opcode is NOP, JMP, LD or ST and `ADMIT_UNCONFIRMED` is false (R93, R226). -/
  | notAdmitted (op : Byte)
  /-- There is no byte at offset `k` from the opcode, where an operand is due (R94). -/
  | missingOperand (k : Nat)
  /-- Bits 7:6 of the opcode give fewer operand bytes than the format of its row has, which R8 excludes. -/
  | tooFewOperands (op : Byte)
  deriving DecidableEq, Repr

/-- The operand bytes of an instruction whose opcode says that there are `n`, from the bytes after it, in address
order: the first that is not there is the one missing (R94). -/
def readOperands (n : Nat) (bs : List Byte) : Except Reject (List Byte) :=
  if bs.length < n then .error (.missingOperand (bs.length + 1)) else .ok (bs.take n)

/-- An instruction that declares one operand byte, the first (R73). -/
def oneOperand (mk : Byte → Instr) : List Byte → Option Instr
  | [] => none
  | a :: _ => some (mk a)

/-- An instruction that declares two operand bytes, the first and the second (R73). -/
def twoOperands (mk : Byte → Byte → Instr) : List Byte → Option Instr
  | [] => none
  | [_] => none
  | a :: b :: _ => some (mk a b)

/-- The instruction of a mnemonic with the operand values that its format declares (R73, R94). -/
def assemble (m : Mnemonic) (operands : List Byte) : Option Instr :=
  match m with
  | .nop => some .nop
  | .hlt => some .hlt
  | .ret => some .ret
  | .iret => some .iret
  | .push => oneOperand .push operands
  | .pop => oneOperand .pop operands
  | .prn => oneOperand .prn operands
  | .pra => oneOperand .pra operands
  | .call => oneOperand .call operands
  | .int => oneOperand .int operands
  | .jmp => oneOperand .jmp operands
  | .jeq => oneOperand .jeq operands
  | .jne => oneOperand .jne operands
  | .jgt => oneOperand .jgt operands
  | .jlt => oneOperand .jlt operands
  | .jle => oneOperand .jle operands
  | .jge => oneOperand .jge operands
  | .inc => oneOperand .inc operands
  | .dec => oneOperand .dec operands
  | .not => oneOperand .not operands
  | .ldi => twoOperands .ldi operands
  | .ld => twoOperands .ld operands
  | .st => twoOperands .st operands
  | .add => twoOperands .add operands
  | .sub => twoOperands .sub operands
  | .mul => twoOperands .mul operands
  | .div => twoOperands .div operands
  | .mod => twoOperands .mod operands
  | .cmp => twoOperands .cmp operands
  | .and => twoOperands .and operands
  | .or => twoOperands .or operands
  | .xor => twoOperands .xor operands
  | .shl => twoOperands .shl operands
  | .shr => twoOperands .shr operands

/-- Whether an opcode of this mnemonic may execute (R77, R93). -/
def Params.admits (p : Params) (m : Mnemonic) : Bool := m.confirmed || p.admitUnconfirmed

/-- Decode: the lookup first, then the admission of an unconfirmed row, then the operand bytes (R93, R94). How many
operand bytes there are comes from bits 7:6 of the opcode alone, never from its row (R70, R92). -/
def decode (p : Params) : List Byte → Except Reject Instr
  | [] => .error .noOpcodeByte
  | op :: rest =>
    match lookup p.opc op with
    | none => .error (.unknownOpcode op)
    | some m =>
      if p.admits m then
        match readOperands (operandCountOf op) rest with
        | .error e => .error e
        | .ok operands =>
          match assemble m operands with
          | some i => .ok i
          | none => .error (.tooFewOperands op)
      else .error (.notAdmitted op)

/-- The mnemonic of an instruction (R76). -/
def Instr.mnemonic : Instr → Mnemonic
  | .nop => .nop
  | .hlt => .hlt
  | .ret => .ret
  | .iret => .iret
  | .push _ => .push
  | .pop _ => .pop
  | .prn _ => .prn
  | .pra _ => .pra
  | .call _ => .call
  | .int _ => .int
  | .jmp _ => .jmp
  | .jeq _ => .jeq
  | .jne _ => .jne
  | .jgt _ => .jgt
  | .jlt _ => .jlt
  | .jle _ => .jle
  | .jge _ => .jge
  | .inc _ => .inc
  | .dec _ => .dec
  | .not _ => .not
  | .ldi _ _ => .ldi
  | .ld _ _ => .ld
  | .st _ _ => .st
  | .add _ _ => .add
  | .sub _ _ => .sub
  | .mul _ _ => .mul
  | .div _ _ => .div
  | .mod _ _ => .mod
  | .cmp _ _ => .cmp
  | .and _ _ => .and
  | .or _ _ => .or
  | .xor _ _ => .xor
  | .shl _ _ => .shl
  | .shr _ _ => .shr

/-- The operand bytes of an instruction, in the order they follow the opcode (R73). -/
def Instr.operandBytes : Instr → List Byte
  | .nop => []
  | .hlt => []
  | .ret => []
  | .iret => []
  | .push rA => [rA]
  | .pop rA => [rA]
  | .prn rA => [rA]
  | .pra rA => [rA]
  | .call rA => [rA]
  | .int rA => [rA]
  | .jmp rA => [rA]
  | .jeq rA => [rA]
  | .jne rA => [rA]
  | .jgt rA => [rA]
  | .jlt rA => [rA]
  | .jle rA => [rA]
  | .jge rA => [rA]
  | .inc rA => [rA]
  | .dec rA => [rA]
  | .not rA => [rA]
  | .ldi rA imm => [rA, imm]
  | .ld rA rB => [rA, rB]
  | .st rA rB => [rA, rB]
  | .add rA rB => [rA, rB]
  | .sub rA rB => [rA, rB]
  | .mul rA rB => [rA, rB]
  | .div rA rB => [rA, rB]
  | .mod rA rB => [rA, rB]
  | .cmp rA rB => [rA, rB]
  | .and rA rB => [rA, rB]
  | .or rA rB => [rA, rB]
  | .xor rA rB => [rA, rB]
  | .shl rA rB => [rA, rB]
  | .shr rA rB => [rA, rB]

/-- The length of an instruction's encoding in bytes, its opcode included (R73). -/
def Instr.width (i : Instr) : Nat := i.mnemonic.format.operandCount + 1

/-- Encode: the opcode byte, then the operand bytes (R73, R76). -/
def encode (p : Params) (i : Instr) : List Byte := p.opc.value i.mnemonic :: i.operandBytes

/-- The first three bytes of an instruction whose bits are `w`: the opcode is bits 7:0, the first operand
bits 15:8, the second bits 23:16 (R55, R73); every bit from `nbits` up is 0. Three bytes is the longest
instruction (R71). -/
def tableBytes (nbits w : Nat) : List Byte :=
  let v := w % 2 ^ nbits
  [BitVec.ofNat 8 v, BitVec.ofNat 8 (v / 256), BitVec.ofNat 8 (v / 65536)]

/-- The instruction the decoder reads from an instruction whose bits are `w`, numbered as the opcode table
numbers them. It uses the parameters of reset, under which all 34 rows are admitted. -/
def decodeTableWord (nbits w : Nat) : Option Instr :=
  match decode Params.admitting (tableBytes nbits w) with
  | .ok i => some i
  | .error _ => none

end Sys2Proof
end

