-- ==== Sys2Proof/Machine/State.lean ====
section
/-! DEFINITION. The state of the machine: everything the spec gives it (10_state.md), as plain data.

Two fields hold inputs of the machine, which rule R39 keeps apart from its state: `time` and `params`.
They stand here because a step has no other argument; `params` is never written. -/

namespace Sys2Proof.Machine

/-- The faults of the hardware (R220). Each ends the run. -/
inductive Fault where
  /-- Raised by the lookup of an opcode byte that has no row in the table (R221). The spec's own fault; safe. -/
  | unknownOpcode (op : Byte)
  /-- Raised by a memory access at 256 or more: the fetch of an opcode or of an operand byte (R222). The spec's
  own fault; safe. -/
  | addressOutOfRange (a : Nat)
  /-- Raised by an instruction whose register operand byte is 8 or more (R223). The spec's own fault; safe. -/
  | badRegisterIndex (r : Byte)
  /-- Raised by a push of a program counter that no byte can hold: CALL at 254, or an interrupt entry with
  `pc = 256` (R224). The spec's own fault; safe. -/
  | pcNotStorable (v : Nat)
  deriving DecidableEq, Repr

/-- Why the model gives a step no meaning. -/
inductive Refusal where
  /-- Raised by the dispatch of an instruction that has no meaning in the model. No arm raises it. Safe. -/
  | notModelled (mnemonic : String)
  /-- Raised by the fetch of NOP, JMP, LD or ST when `ADMIT_UNCONFIRMED` is false: `Refused(op)` of R226. Safe. -/
  | unconfirmedOpcode (op : Byte)
  /-- Raised by the fetch of an opcode whose bits 7:6 give fewer operand bytes than the format of its row has. The
  constraints of R8 on `OPC` exclude it. Safe. -/
  | tooFewOperands (op : Byte)
  deriving DecidableEq, Repr

/-- The run status (R34). Only `running` has a next cycle. -/
inductive Status where
  | running
  | halted
  | faulted (f : Fault)
  | refused (op : Byte)
  deriving DecidableEq, Repr

/-- The kinds of diagnostic message (R37). -/
inductive Message where
  | divByZero
  | modByZero
  | unknownOpcode (op : Byte)
  | crash (f : Fault)
  deriving DecidableEq, Repr

/-- `MSG_TEXT`: the text of each kind of message, which no source gives (R8, R37, D22). A free value: it has no
body, so no claim can rest on what a message reads. Log entry 5. -/
opaque Config.msgText : Message → String

/-- The memory `M`: the cells that do not hold the byte of an unwritten cell, at rising addresses (R33, R50). -/
abbrev Memory := List Host.Cell

/-- The time source: the inputs `dt` of the cycles (R39, R40). Inputs may be given (R232 has the source injectable); in
the cycles after the last given one the input is free (`Config.freeElapsed`). Log entry 4. -/
structure TimeSource where
  /-- The inputs given for the cycles to come, oldest first. -/
  inputs : List Seconds
  /-- How many inputs were taken, one for each cycle: it tells one free input from the next. -/
  taken : Nat
  deriving DecidableEq, Repr

/-- The state of CA-CORE (10_state.md). -/
structure State where
  /-- The general registers `x[0]` to `x[7]` (R20); SP, IM and IS are three of them (R21). -/
  x : Vector Byte 8
  /-- The program counter, 0 to 256 (R24). -/
  pc : Nat
  /-- The flags register FL (R26). -/
  fl : Byte
  /-- The interrupt-servicing enable IE (R30). -/
  ie : Bool
  /-- The eligibility latch ELIG (R31). -/
  elig : Bool
  /-- The timer accumulator TACC (R32). -/
  tacc : Seconds
  /-- The memory M (R33). -/
  mem : Memory
  /-- The run status (R34). -/
  status : Status
  /-- The console output OUT, oldest first (R36). -/
  out : List Byte
  /-- The diagnostic messages MSG, oldest first (R37). -/
  msg : List Message
  /-- The time source (R39, R40, R232). The model's own field. -/
  time : TimeSource
  /-- The parameters of R8 (R39). The model's own field, written by nothing. -/
  params : Params
  deriving DecidableEq, Repr

/-- The reset state under given parameters (R260). -/
def State.resetWith (p : Params) : State where
  x := (Vector.replicate 8 0#8).set p.spReg.val p.spInit
  pc := 0
  fl := 0#8
  ie := true
  elig := false
  tacc := ⟨0, 1⟩
  mem := []
  status := .running
  out := []
  msg := []
  time := ⟨[], 0⟩
  params := p

/-- The machine right after reset (R260), memory not yet loaded. -/
def State.reset : State := State.resetWith Params.admitting

end Sys2Proof.Machine
end

