-- ==== Sys2Proof/Machine/Ops.lean ====
section
/-! DEFINITION. The named operations over memory, registers, the stack and the outputs, which the meanings
share: the primitives of rule R11, the stack primitives of R100 and R101, and interrupt entry and return. -/

namespace Sys2Proof.Machine

/-! ## Memory -/

/-- The byte at an address; a cell that is not listed reads as an unwritten one (R260). -/
def Memory.get : Memory → Nat → Byte
  | [], _ => Config.unlistedByte
  | (k, v) :: rest, a => if k = a then v else Memory.get rest a

/-- Put a cell before the first one at a higher address. -/
def Memory.insertCell (a : Nat) (v : Byte) : Memory → Memory
  | [] => [(a, v)]
  | (k, w) :: rest => if a < k then (a, v) :: (k, w) :: rest else (k, w) :: Memory.insertCell a v rest

/-- Drop the cell at an address. -/
def Memory.erase (m : Memory) (a : Nat) : Memory := m.filter fun c => decide (c.1 ≠ a)

/-- Set the byte at an address. Writing what an unwritten cell reads as drops the cell. -/
def Memory.set (m : Memory) (a : Nat) (v : Byte) : Memory :=
  if v = Config.unlistedByte then m.erase a else Memory.insertCell a v (m.erase a)

/-- The canonical form: addresses strictly rising and in 0..255, no cell that reads as an unwritten one. -/
abbrev Memory.wf (m : Memory) : Prop :=
  m.Pairwise (fun c d => c.1 < d.1) ∧ ∀ c ∈ m, c.1 < 256 ∧ c.2 ≠ Config.unlistedByte

/-- Set bytes at consecutive addresses, leaving out those past the last cell. -/
def Memory.setAll : Memory → Nat → List Byte → Memory
  | m, _, [] => m
  | m, a, v :: vs => Memory.setAll (if a < 256 then m.set a v else m) (a + 1) vs

/-- `MemRead(a, 1)` (R52). -/
def State.memRead (s : State) (a : Nat) : Except Fault Byte :=
  if a < 256 then .ok (s.mem.get a) else .error (.addressOutOfRange a)

/-- Store a byte at an address that is itself a byte, so that it exists (R51, R53). -/
def State.storeByte (s : State) (a v : Byte) : State := { s with mem := s.mem.set a.toNat v }

/-- `MemWrite(a, 1, v)` (R53): a value of 256 does not fit a cell. -/
def State.memWrite (s : State) (a v : Nat) : Except Fault State :=
  if a < 256 then
    if v < 256 then .ok { s with mem := s.mem.set a (BitVec.ofNat 8 v) } else .error (.pcNotStorable v)
  else .error (.addressOutOfRange a)

/-! ## Registers -/

/-- `x[i]` (R11, R20). -/
def State.reg (s : State) (i : Reg) : Byte := s.x[i.val]

/-- `x[i] <- v` (R11, R22). -/
def State.setReg (s : State) (i : Reg) (v : Byte) : State := { s with x := s.x.set i.val v }

/-- SP, the stack pointer (R21). -/
def State.sp (s : State) : Byte := s.reg s.params.spReg

/-- IM, the interrupt mask (R21, R29). -/
def State.im (s : State) : Byte := s.reg s.params.imReg

/-- IS, the interrupt status (R21, R29). -/
def State.is (s : State) : Byte := s.reg s.params.isReg

/-- `FL <- v` (R11). -/
def State.setFl (s : State) (v : Byte) : State := { s with fl := v }

/-- `pc <- t` (R11). Every target is a byte (R24, R171). -/
def State.jumpTo (s : State) (t : Byte) : State := { s with pc := t.toNat }

/-- `W`, the width of the instruction being executed (R92): from bits 7:6 of its opcode byte alone, never from its
row. -/
def State.width (s : State) (m : Mnemonic) : Nat := widthOf (s.params.opc.value m)

/-- The generic advance `pc <- pc + W`, not reduced mod 256 (R95). -/
def State.advance (s : State) (w : Nat) : State := { s with pc := s.pc + w }

/-- `IE <- b` (R30). -/
def State.setIe (s : State) (b : Bool) : State := { s with ie := b }

/-- `ELIG <- b` (R31). -/
def State.setElig (s : State) (b : Bool) : State := { s with elig := b }

/-! ## Run status and outputs -/

/-- `Halt()` (R35). -/
def State.halt (s : State) : State := { s with status := .halted }

/-- `Report(m)` (R11, R37). -/
def State.report (s : State) (m : Message) : State := { s with msg := s.msg ++ [m] }

/-- `Emit(c)` for each code point of a list, in order (R11, R36). -/
def State.emit (s : State) (cs : List Byte) : State := { s with out := s.out ++ cs }

/-- The outcome of a computation that may raise a fault. -/
def outcomeOf : Except Fault State → Host.Outcome State Fault Refusal
  | .ok s => .next s
  | .error f => .fault f

/-! ## The stack primitives -/

/-- `Push(v)` (R100): decrement SP mod 256, then write at the new SP. -/
def State.push (s : State) (v : Nat) : Except Fault State :=
  let s' := s.setReg s.params.spReg (s.sp - 1)
  s'.memWrite s'.sp.toNat v

/-- `Push(v)` of a byte, which never faults (R51, R100). -/
def State.pushByte (s : State) (v : Byte) : State :=
  let s' := s.setReg s.params.spReg (s.sp - 1)
  s'.storeByte s'.sp v

/-- `Pop()` (R101): read at SP, then increment SP mod 256. -/
def State.pop (s : State) : Byte × State :=
  (s.mem.get s.sp.toNat, s.setReg s.params.spReg (s.sp + 1))

/-! ## Interrupt entry and return -/

/-- The mask of an interrupt line: `1 << i`. -/
def lineBit (i : Line) : Byte := 1#8 <<< i.val

/-- The eight registers, ascending. -/
def allRegisters : List Reg := [0, 1, 2, 3, 4, 5, 6, 7]

/-- Push `x[0]` to `x[7]`, each read when its turn comes (R235). -/
def State.saveRegisters (s : State) : State :=
  allRegisters.foldl (fun t k => t.pushByte (t.reg k)) s

/-- Pop into `x[7]` down to `x[0]`, each written after the primitive's increment of SP (R101, R201). -/
def State.restoreRegisters (s : State) : State :=
  allRegisters.reverse.foldl (fun t k => t.pop.2.setReg k t.pop.1) s

/-- The first two lines of `EnterInterrupt(i)` (R235): no further servicing, and the line is no longer pending. -/
def State.acknowledge (s : State) (i : Line) : State :=
  (s.setIe false).setReg s.params.isReg (s.is &&& ~~~ lineBit i)

/-- The pushes of `EnterInterrupt(i)` (R235): the program counter, FL, the eight registers. -/
def State.saveContext (s : State) : Except Fault State :=
  match s.push s.pc with
  | .error f => .error f
  | .ok t => .ok (t.pushByte t.fl).saveRegisters

/-- The last line of `EnterInterrupt(i)` (R235): go to the handler in the vector slot, read after the pushes. -/
def State.vectorTo (s : State) (i : Line) : Except Fault State :=
  match s.memRead (s.params.vtBase.toNat + i.val) with
  | .error f => .error f
  | .ok handler => .ok (s.jumpTo handler)

/-- `EnterInterrupt(i)` (R235): the machine's one way of taking an interrupt. -/
def State.enterInterrupt (s : State) (i : Line) : Except Fault State :=
  match (s.acknowledge i).saveContext with
  | .error f => .error f
  | .ok t => t.vectorTo i

/-- The return from an interrupt (R201): the registers, FL and the program counter from the stack, then IE. -/
def State.returnFromInterrupt (s : State) : State :=
  let s1 := s.restoreRegisters
  let s2 := s1.pop.2.setFl s1.pop.1
  let s3 := s2.pop.2.jumpTo s2.pop.1
  s3.setIe true

end Sys2Proof.Machine
end

