-- ==== Sys2Proof/Machine/Controller.lean ====
section
/-! DEFINITION. The interrupt controller: the timer poll and the interrupt check of step 1 of the cycle
(rules R231, R233). -/

namespace Sys2Proof.Machine

/-- A fraction in lowest terms. -/
def Seconds.reduce (n d : Nat) : Seconds := ⟨n / Nat.gcd n d, d / Nat.gcd n d⟩

/-- The sum of two spans of time (R231). -/
def Seconds.add (t u : Seconds) : Seconds := Seconds.reduce (t.num * u.den + u.num * t.den) (t.den * u.den)

/-- Whether a span is at least `TICK_PERIOD` = 1 second (R7, R231). -/
def Seconds.reachesPeriod (t : Seconds) : Bool := decide (t.den ≤ t.num)

/-- A span less `TICK_PERIOD` = 1 second (R7, R231), for a span that reaches it. -/
def Seconds.lessPeriod (t : Seconds) : Seconds := ⟨t.num - t.den, t.den⟩

/-- A free time input: any non-negative rational number of seconds (R40, R232). -/
def freeInput (k : Nat) : Seconds := Seconds.reduce (Config.freeElapsed k).1 ((Config.freeElapsed k).2 + 1)

/-- The input `dt` of the cycle (R40, R232): the first that is given, and a free one when none is. -/
def TimeSource.first (t : TimeSource) : Seconds := t.inputs.headD (freeInput t.taken)

/-- The time source once the input of a cycle is taken. -/
def TimeSource.rest (t : TimeSource) : TimeSource := ⟨t.inputs.tail, t.taken + 1⟩

/-- The elapsed time `dt` of this cycle (R40). -/
def State.elapsed (s : State) : Seconds := s.time.first

/-- `TimerPoll(dt)` (R231): at most one tick. -/
def State.timerPoll (s : State) : State :=
  let total := Seconds.add s.tacc s.elapsed
  let s1 := { s with tacc := total, time := s.time.rest }
  if Seconds.reachesPeriod total then
    { s1.setReg s1.params.isReg (s1.is ||| lineBit Config.timerLine) with
      tacc := Seconds.lessPeriod total, elig := true }
  else s1

/-- The interrupt lines, lowest first. -/
def allLines : List Line := [0, 1, 2, 3, 4, 5, 6, 7]

/-- `InterruptCheck()` (R233): the lowest line that is pending and enabled. -/
def State.interruptCheck (s : State) : Option Line :=
  if s.elig && s.ie then allLines.find? fun i => (s.im &&& s.is).getLsbD i.val else none

end Sys2Proof.Machine
end

