-- ==== Sys2Proof/Machine/Flags.lean ====
section
/-! DEFINITION. The flags: what CMP computes (rule R143) and the conditions that read FL (rule R178). -/

namespace Sys2Proof.Machine

/-- The value of FL with one flag set: `1 << bit`. -/
def flagMask (bit : Fin 3) : Byte := 1#8 <<< bit.val

/-- The FL that a compare of `a` with `b` leaves (R143): exactly one bit, by the unsigned order. -/
def compareFlags (p : Params) (a b : Byte) : Byte :=
  if a.toNat = b.toNat then flagMask p.flE
  else if b.toNat < a.toNat then flagMask p.flG
  else flagMask p.flL

/-- E, the bit "equal" of FL (R178). -/
def State.flagE (s : State) : Bool := s.fl.getLsbD s.params.flE.val

/-- G, the bit "greater" of FL (R178). -/
def State.flagG (s : State) : Bool := s.fl.getLsbD s.params.flG.val

/-- L, the bit "less" of FL (R178). -/
def State.flagL (s : State) : Bool := s.fl.getLsbD s.params.flL.val

/-- JEQ is taken when E = 1 (R178, R180). -/
def State.condEqual (s : State) : Bool := s.flagE

/-- JNE is taken when E = 0 (R178, R181). -/
def State.condNotEqual (s : State) : Bool := !s.flagE

/-- JGT is taken when G = 1 (R178, R182). -/
def State.condGreater (s : State) : Bool := s.flagG

/-- JLT is taken when L = 1 (R178, R183). -/
def State.condLess (s : State) : Bool := s.flagL

/-- JGE, under both readings of `COND_READING` (R178, R184). -/
def State.condGreaterEqual (s : State) : Bool :=
  match s.params.condReading with
  | .bits => s.flagG || s.flagE
  | .notLess => s.fl != flagMask s.params.flL

/-- JLE, under both readings of `COND_READING` (R178, R185). -/
def State.condLessEqual (s : State) : Bool :=
  match s.params.condReading with
  | .bits => s.flagL || s.flagE
  | .notLess => s.fl != flagMask s.params.flG

end Sys2Proof.Machine
end

