-- ==== Sys2Proof/Machine/Operands.lean ====
section
/-! DEFINITION. The operand forms (rules R12, R73, R74, R75): a register operand byte is an index, used whole,
and 8 or more is a fault; an immediate is the byte itself. -/

namespace Sys2Proof.Machine

/-- The register a register operand byte names (R74): no masking. -/
def registerOf (r : Byte) : Except Fault Reg :=
  if h : r.toNat < 8 then .ok ⟨r.toNat, h⟩ else .error (.badRegisterIndex r)

/-- Formats F1R and F2RI: check `rA`, then go on with its register (R12). -/
def withRegister (rA : Byte) (k : Reg → Host.Outcome State Fault Refusal) : Host.Outcome State Fault Refusal :=
  match registerOf rA with
  | .ok a => k a
  | .error f => .fault f

/-- Format F2RR: check `rA`, then `rB`, then go on with both registers (R12, R74). -/
def withRegisters (rA rB : Byte) (k : Reg → Reg → Host.Outcome State Fault Refusal) :
    Host.Outcome State Fault Refusal :=
  withRegister rA fun a => withRegister rB fun b => k a b

/-- The immediate of format F2RI is the operand byte, unchanged (R75). -/
def immediateOf (imm : Byte) : Byte := imm

end Sys2Proof.Machine
end

