-- ==== Sys2Proof/Machine/Alu.lean ====
section
/-! DEFINITION. The ALU instructions (42_alu.md).

The ALU is a pure function of the two register values, which are read before the result is written (R144).
Every operation is computed over the naturals or the integers and reduced mod 256 (R145). -/

namespace Sys2Proof.Machine

/-! ## The ALU's functions -/

/-- A + B (R130). -/
def aluAdd (a b : Byte) : Byte := BitVec.ofNat 8 (a.toNat + b.toNat)

/-- A - B over the integers (R131). -/
def aluSub (a b : Byte) : Byte := BitVec.ofInt 8 ((a.toNat : Int) - (b.toNat : Int))

/-- A * B (R132). -/
def aluMul (a b : Byte) : Byte := BitVec.ofNat 8 (a.toNat * b.toNat)

/-- The floor quotient A // B, for a divisor that is not zero (R133, R148). -/
def aluDiv (a b : Byte) : Byte := BitVec.ofNat 8 (a.toNat / b.toNat)

/-- The remainder A mod B, for a divisor that is not zero (R134, R148). -/
def aluMod (a b : Byte) : Byte := BitVec.ofNat 8 (a.toNat % b.toNat)

/-- A + 1 (R135). -/
def aluInc (a : Byte) : Byte := BitVec.ofNat 8 (a.toNat + 1)

/-- A - 1 over the integers (R136). -/
def aluDec (a : Byte) : Byte := BitVec.ofInt 8 ((a.toNat : Int) - 1)

/-- 255 - A, the complement of all 8 bits (R137). -/
def aluNot (a : Byte) : Byte := ~~~a

/-- A & B (R138). -/
def aluAnd (a b : Byte) : Byte := a &&& b

/-- A | B (R139). -/
def aluOr (a b : Byte) : Byte := a ||| b

/-- A ^ B (R140). -/
def aluXor (a b : Byte) : Byte := a ^^^ b

/-- A << B on an unbounded natural, by the whole byte B (R141). -/
def aluShl (a b : Byte) : Byte := BitVec.ofNat 8 (a.toNat <<< b.toNat)

/-- A >> B, logical, by the whole byte B (R142). -/
def aluShr (a b : Byte) : Byte := BitVec.ofNat 8 (a.toNat >>> b.toNat)

/-! ## The shapes the instructions share -/

/-- A two-operand ALU instruction: `x[rA] <- f(x[rA], x[rB])`, then the advance (R144). -/
def aluBinary (m : Mnemonic) (f : Byte → Byte → Byte) (rA rB : Byte) (s : State) : Host.Outcome State Fault Refusal :=
  withRegisters rA rB fun a b => .next ((s.setReg a (f (s.reg a) (s.reg b))).advance (s.width m))

/-- A one-operand ALU instruction: `x[rA] <- f(x[rA])`, then the advance (R144). -/
def aluUnary (m : Mnemonic) (f : Byte → Byte) (rA : Byte) (s : State) : Host.Outcome State Fault Refusal :=
  withRegister rA fun a => .next ((s.setReg a (f (s.reg a))).advance (s.width m))

/-! ## The instructions -/

/-- ADD rA, rB (R130). -/
def execAdd (rA rB : Byte) (s : State) : Host.Outcome State Fault Refusal := aluBinary .add aluAdd rA rB s

/-- SUB rA, rB (R131). -/
def execSub (rA rB : Byte) (s : State) : Host.Outcome State Fault Refusal := aluBinary .sub aluSub rA rB s

/-- MUL rA, rB (R132). -/
def execMul (rA rB : Byte) (s : State) : Host.Outcome State Fault Refusal := aluBinary .mul aluMul rA rB s

/-- DIV rA, rB (R133, R227): the divisor is checked before the ALU is invoked (R148); zero reports and halts. -/
def execDiv (rA rB : Byte) (s : State) : Host.Outcome State Fault Refusal :=
  withRegisters rA rB fun a b =>
    if s.reg b = 0#8 then .next ((s.report .divByZero).halt.advance (s.width .div))
    else .next ((s.setReg a (aluDiv (s.reg a) (s.reg b))).advance (s.width .div))

/-- MOD rA, rB (R134, R228): a zero divisor reports, and the run goes on (R148). -/
def execMod (rA rB : Byte) (s : State) : Host.Outcome State Fault Refusal :=
  withRegisters rA rB fun a b =>
    if s.reg b = 0#8 then .next ((s.report .modByZero).advance (s.width .mod))
    else .next ((s.setReg a (aluMod (s.reg a) (s.reg b))).advance (s.width .mod))

/-- INC rA (R135). -/
def execInc (rA : Byte) (s : State) : Host.Outcome State Fault Refusal := aluUnary .inc aluInc rA s

/-- DEC rA (R136). -/
def execDec (rA : Byte) (s : State) : Host.Outcome State Fault Refusal := aluUnary .dec aluDec rA s

/-- NOT rA (R137). -/
def execNot (rA : Byte) (s : State) : Host.Outcome State Fault Refusal := aluUnary .not aluNot rA s

/-- AND rA, rB (R138). -/
def execAnd (rA rB : Byte) (s : State) : Host.Outcome State Fault Refusal := aluBinary .and aluAnd rA rB s

/-- OR rA, rB (R139). -/
def execOr (rA rB : Byte) (s : State) : Host.Outcome State Fault Refusal := aluBinary .or aluOr rA rB s

/-- XOR rA, rB (R140). -/
def execXor (rA rB : Byte) (s : State) : Host.Outcome State Fault Refusal := aluBinary .xor aluXor rA rB s

/-- SHL rA, rB (R141). -/
def execShl (rA rB : Byte) (s : State) : Host.Outcome State Fault Refusal := aluBinary .shl aluShl rA rB s

/-- SHR rA, rB (R142). -/
def execShr (rA rB : Byte) (s : State) : Host.Outcome State Fault Refusal := aluBinary .shr aluShr rA rB s

/-- CMP rA, rB (R143): all of FL is overwritten, no register is. -/
def execCmp (rA rB : Byte) (s : State) : Host.Outcome State Fault Refusal :=
  withRegisters rA rB fun a b => .next ((s.setFl (compareFlags s.params (s.reg a) (s.reg b))).advance (s.width .cmp))

end Sys2Proof.Machine
end

