-- ==== Sys2Proof/Machine/DataIo.lean ====
section
/-! DEFINITION. Halt, immediate load and console output (41_data_io.md). -/

namespace Sys2Proof.Machine

/-- The ASCII code of a decimal digit (R112). -/
def digitCode (d : Nat) : Byte := BitVec.ofNat 8 (48 + d)

/-- `decimal(v)`: the digits of a byte in base 10, most significant first, no leading zeros (R112). -/
def decimalDigits (v : Byte) : List Byte :=
  (if 100 ≤ v.toNat then [digitCode (v.toNat / 100)] else []) ++
  (if 10 ≤ v.toNat then [digitCode (v.toNat / 10 % 10)] else []) ++
  [digitCode (v.toNat % 10)]

/-- The newline that PRN emits after the digits (R36, R112). -/
def newline : Byte := 10#8

/-- HLT (R110). -/
def execHlt (s : State) : Host.Outcome State Fault Refusal := .next (s.halt.advance (s.width .hlt))

/-- LDI rA, imm (R111). -/
def execLdi (rA imm : Byte) (s : State) : Host.Outcome State Fault Refusal :=
  withRegister rA fun a => .next ((s.setReg a (immediateOf imm)).advance (s.width .ldi))

/-- PRN rA (R112). -/
def execPrn (rA : Byte) (s : State) : Host.Outcome State Fault Refusal :=
  withRegister rA fun a => .next ((s.emit (decimalDigits (s.reg a) ++ [newline])).advance (s.width .prn))

/-- PRA rA (R113). -/
def execPra (rA : Byte) (s : State) : Host.Outcome State Fault Refusal :=
  withRegister rA fun a => .next ((s.emit [s.reg a]).advance (s.width .pra))

end Sys2Proof.Machine
end

