-- ==== Sys2Proof/Machine/Interrupt.lean ====
section
/-! DEFINITION. The interrupt instructions (44_interrupt.md). Entry and return are in Ops.lean. -/

namespace Sys2Proof.Machine

/-- INT rA (R200): IS is replaced (D20), ELIG is set if `INT_SETS_ELIG`, and the program counter advances. -/
def execInt (rA : Byte) (s : State) : Host.Outcome State Fault Refusal :=
  withRegister rA fun a =>
    .next (((s.setReg s.params.isReg (s.reg a)).setElig (s.elig || s.params.intSetsElig)).advance (s.width .int))

/-- IRET (R201). -/
def execIret (s : State) : Host.Outcome State Fault Refusal := .next s.returnFromInterrupt

end Sys2Proof.Machine
end

