-- ==== Sys2Proof/Machine/StackControl.lean ====
section
/-! DEFINITION. Stack and control-transfer instructions (43_stack_control.md). -/

namespace Sys2Proof.Machine

/-- PUSH rA (R172): the value is taken before the decrement (D18). -/
def execPush (rA : Byte) (s : State) : Host.Outcome State Fault Refusal :=
  withRegister rA fun a => .next ((s.pushByte (s.reg a)).advance (s.width .push))

/-- POP rA (R173): the register is written after the increment (D19). -/
def execPop (rA : Byte) (s : State) : Host.Outcome State Fault Refusal :=
  withRegister rA fun a => .next ((s.pop.2.setReg a s.pop.1).advance (s.width .pop))

/-- CALL rA (R174): push the return address, then read the target (D17). -/
def execCall (rA : Byte) (s : State) : Host.Outcome State Fault Refusal :=
  withRegister rA fun a =>
    match s.push (s.pc + 2) with
    | .ok t => .next (t.jumpTo (t.reg a))
    | .error f => .fault f

/-- RET (R175). -/
def execRet (s : State) : Host.Outcome State Fault Refusal := .next (s.pop.2.jumpTo s.pop.1)

/-- The shape of the conditional jumps (R179): the target if the condition holds, else the advance. -/
def jumpIf (m : Mnemonic) (cond : Bool) (rA : Byte) (s : State) : Host.Outcome State Fault Refusal :=
  withRegister rA fun a => .next (if cond then s.jumpTo (s.reg a) else s.advance (s.width m))

/-- JEQ rA (R180). -/
def execJeq (rA : Byte) (s : State) : Host.Outcome State Fault Refusal := jumpIf .jeq s.condEqual rA s

/-- JNE rA (R181). -/
def execJne (rA : Byte) (s : State) : Host.Outcome State Fault Refusal := jumpIf .jne s.condNotEqual rA s

/-- JGT rA (R182). -/
def execJgt (rA : Byte) (s : State) : Host.Outcome State Fault Refusal := jumpIf .jgt s.condGreater rA s

/-- JLT rA (R183). -/
def execJlt (rA : Byte) (s : State) : Host.Outcome State Fault Refusal := jumpIf .jlt s.condLess rA s

/-- JGE rA (R184). -/
def execJge (rA : Byte) (s : State) : Host.Outcome State Fault Refusal := jumpIf .jge s.condGreaterEqual rA s

/-- JLE rA (R185). -/
def execJle (rA : Byte) (s : State) : Host.Outcome State Fault Refusal := jumpIf .jle s.condLessEqual rA s

end Sys2Proof.Machine
end

