-- ==== Sys2Proof/Machine/Unconfirmed.lean ====
section
/-! DEFINITION. The four instructions the source does not name (45_unconfirmed.md): what each does once it is
admitted. Whether it is admitted is decided before, when the opcode is looked up (rules R77, R93, R226). -/

namespace Sys2Proof.Machine

/-- NOP (R211). -/
def execNop (s : State) : Host.Outcome State Fault Refusal := .next (s.advance (s.width .nop))

/-- JMP rA (R212). -/
def execJmp (rA : Byte) (s : State) : Host.Outcome State Fault Refusal :=
  withRegister rA fun a => .next (s.jumpTo (s.reg a))

/-- LD rA, rB (R213): the address is a byte, so the access never faults. -/
def execLd (rA rB : Byte) (s : State) : Host.Outcome State Fault Refusal :=
  withRegisters rA rB fun a b => .next ((s.setReg a (s.mem.get (s.reg b).toNat)).advance (s.width .ld))

/-- ST rA, rB (R214): the value of `rB` at the address in `rA`. -/
def execSt (rA rB : Byte) (s : State) : Host.Outcome State Fault Refusal :=
  withRegisters rA rB fun a b => .next ((s.storeByte (s.reg a) (s.reg b)).advance (s.width .st))

end Sys2Proof.Machine
end

