-- ==== Sys2Proof/Machine/Dispatch.lean ====
section
/-! DEFINITION. The dispatch table: one arm for each instruction (rules R77, R90). -/

namespace Sys2Proof.Machine

def exec (i : Instr) (s : State) : Host.Outcome State Fault Refusal :=
  match i with
  | .nop => Sys2Proof.Machine.execNop s
  | .hlt => Sys2Proof.Machine.execHlt s
  | .ret => Sys2Proof.Machine.execRet s
  | .iret => Sys2Proof.Machine.execIret s
  | .push rA => Sys2Proof.Machine.execPush rA s
  | .pop rA => Sys2Proof.Machine.execPop rA s
  | .prn rA => Sys2Proof.Machine.execPrn rA s
  | .pra rA => Sys2Proof.Machine.execPra rA s
  | .call rA => Sys2Proof.Machine.execCall rA s
  | .int rA => Sys2Proof.Machine.execInt rA s
  | .jmp rA => Sys2Proof.Machine.execJmp rA s
  | .jeq rA => Sys2Proof.Machine.execJeq rA s
  | .jne rA => Sys2Proof.Machine.execJne rA s
  | .jgt rA => Sys2Proof.Machine.execJgt rA s
  | .jlt rA => Sys2Proof.Machine.execJlt rA s
  | .jle rA => Sys2Proof.Machine.execJle rA s
  | .jge rA => Sys2Proof.Machine.execJge rA s
  | .inc rA => Sys2Proof.Machine.execInc rA s
  | .dec rA => Sys2Proof.Machine.execDec rA s
  | .not rA => Sys2Proof.Machine.execNot rA s
  | .ldi rA imm => Sys2Proof.Machine.execLdi rA imm s
  | .ld rA rB => Sys2Proof.Machine.execLd rA rB s
  | .st rA rB => Sys2Proof.Machine.execSt rA rB s
  | .add rA rB => Sys2Proof.Machine.execAdd rA rB s
  | .sub rA rB => Sys2Proof.Machine.execSub rA rB s
  | .mul rA rB => Sys2Proof.Machine.execMul rA rB s
  | .div rA rB => Sys2Proof.Machine.execDiv rA rB s
  | .mod rA rB => Sys2Proof.Machine.execMod rA rB s
  | .cmp rA rB => Sys2Proof.Machine.execCmp rA rB s
  | .and rA rB => Sys2Proof.Machine.execAnd rA rB s
  | .or rA rB => Sys2Proof.Machine.execOr rA rB s
  | .xor rA rB => Sys2Proof.Machine.execXor rA rB s
  | .shl rA rB => Sys2Proof.Machine.execShl rA rB s
  | .shr rA rB => Sys2Proof.Machine.execShr rA rB s

end Sys2Proof.Machine
end

