-- ==== Sys2Proof/Machine/Fetch.lean ====
section
/-! DEFINITION. Fetching an instruction's bytes (rules R91, R92, R94), and what a failed fetch raises (R225). -/

namespace Sys2Proof.Machine

/-- Up to `n` bytes from an address on, stopping at the first address that does not exist (R52). -/
def State.bytesFrom (s : State) : Nat → Nat → List Byte
  | 0, _ => []
  | n + 1, a =>
    match s.memRead a with
    | .ok v => v :: s.bytesFrom n (a + 1)
    | .error _ => []

/-- The bytes of the instruction at `pc`, as far as memory goes: the opcode, then as many operand bytes as its
bits 7:6 say (R91, R92, R94). They are read before the lookup; a read has no side effect (R52). -/
def State.fetch (s : State) : List Byte :=
  match s.memRead s.pc with
  | .ok op => op :: s.bytesFrom (operandCountOf op) (s.pc + 1)
  | .error _ => []

/-- What the cycle ends with when the bytes at `pc` do not decode (R91, R93, R94, R225). -/
def rejection (pc : Nat) : Reject → Host.Outcome State Fault Refusal
  | .noOpcodeByte => .fault (.addressOutOfRange pc)
  | .unknownOpcode op => .fault (.unknownOpcode op)
  | .notAdmitted op => .refused (.unconfirmedOpcode op)
  | .missingOperand k => .fault (.addressOutOfRange (pc + k))
  | .tooFewOperands op => .refused (.tooFewOperands op)

end Sys2Proof.Machine
end

