-- ==== Sys2Proof/Machine/Outputs.lean ====
section
/-! DEFINITION. What the host sees of a run: the codes and messages of the faults, the exit code, the status
that a fault or a refusal leaves, and the launch of a run (rules R38, R98, R220, R226, R262, R268). -/

namespace Sys2Proof.Machine

/-- The code of a fault (R220). -/
def Fault.code : Fault → Nat
  | .unknownOpcode _ => 1
  | .addressOutOfRange _ => 2
  | .badRegisterIndex _ => 3
  | .pcNotStorable _ => 4

/-- The message a fault reports (R37, R220). -/
def Fault.message : Fault → Message
  | .unknownOpcode op => .unknownOpcode op
  | f => .crash f

/-- The exit code of a terminal status (R38). -/
def Status.exitCode : Status → Option Nat
  | .running => none
  | .halted => some 0
  | .faulted _ => some 1
  | .refused _ => none

/-- What a raised fault does to the state at the start of its cycle (R98): the status, the message, and nothing
else. R98 lets a model keep the registers, FL, `pc` and `M` of that state; no claim may rest on them. -/
def State.raise (s : State) (f : Fault) : State := { s with status := .faulted f, msg := s.msg ++ [f.message] }

/-- What the refusal of an opcode does (R226): the status, no message. -/
def State.refuse (s : State) (op : Byte) : State := { s with status := .refused op }

/-- The state a cycle ends in, from the state it started in and the outcome of the step. A refusal
that is not the spec's `Refused(op)` leaves the state. -/
def State.finish (s : State) : Host.Outcome State Fault Refusal → State
  | .next t => t
  | .fault f => s.raise f
  | .refused r =>
    match r with
    | .unconfirmedOpcode op => s.refuse op
    | _ => s

/-- The final state that the host sees, for `Halted` only (R268). -/
structure FinalState where
  x : Vector Byte 8
  fl : Byte
  pc : Nat
  mem : Memory
  ie : Bool
  elig : Bool
  deriving DecidableEq, Repr

/-- What the host observes of a state (R40, R268). -/
structure Observation where
  status : Status
  exitCode : Option Nat
  out : List Byte
  msg : List Message
  final : Option FinalState
  deriving DecidableEq, Repr

/-- What the host observes (R268). -/
def State.observe (s : State) : Observation where
  status := s.status
  exitCode := s.status.exitCode
  out := s.out
  msg := s.msg
  final := if s.status = .halted then some ⟨s.x, s.fl, s.pc, s.mem, s.ie, s.elig⟩ else none

/-- The texts of the messages reported, under the open parameter `MSG_TEXT` (R37). -/
def State.messageTexts (s : State) : List String := s.msg.map Config.msgText

/-- The state a run starts in (R260, R262): the reset state under given parameters, with the program image in
memory from address 0 on and the time inputs of its first cycles, none or more; those after are free (R232). -/
def State.launch (p : Params) (image : List Byte) (times : List Seconds) : State :=
  { State.resetWith p with mem := Memory.setAll [] 0 image, time := ⟨times, 0⟩ }

end Sys2Proof.Machine
end

