-- ==== Sys2Proof/Machine/Step.lean ====
section
/-! DEFINITION. The step: one cycle of the engine (rule R90). -/

namespace Sys2Proof.Machine

/-- Steps 2 to 6 of the cycle: one instruction (R90). -/
def runInstruction (s : State) : Host.Outcome State Fault Refusal :=
  match decode s.params s.fetch with
  | .ok i => exec i s
  | .error e => rejection s.pc e

/-- One cycle of a running machine (R90, R97): the timer poll, then an interrupt entry or one instruction. -/
def runCycle (s : State) : Host.Outcome State Fault Refusal :=
  match s.timerPoll.interruptCheck with
  | some i => outcomeOf (s.timerPoll.enterInterrupt i)
  | none => runInstruction s.timerPoll

/-- One step. A terminal status has no further cycle and no state changes again (R96): the step leaves the state
as it is. -/
def step (s : State) : Host.Outcome State Fault Refusal :=
  match s.status with
  | .running => runCycle s
  | .halted => .next s
  | .faulted _ => .next s
  | .refused _ => .next s

/-- The cycle of R90 as a function of states: what `step` answers, with the terminal status and the message that
a fault or a refusal leaves (R98, R226). -/
def cycle (s : State) : State := s.finish (step s)

/-- The state with an instruction stored where the next step fetches, so that the very next step runs it. The
bits of the instruction are `w`, numbered as the opcode table numbers them. Only what the fetch needs changes:
a `pc` that leaves no room for three bytes goes to 0, a terminal status to running, the time input of the next cycle
is 0 where none is given (a free one could tick, and the cycle enter an interrupt), and IE goes to 0 where the next
cycle would enter an interrupt all the same. At reset only the time input is needed. -/
def State.withFetchWord (s : State) (nbits w : Nat) : State :=
  let base := if s.pc ≤ 253 then s.pc else 0
  let given := { s with time := { s.time with inputs := if s.time.inputs = [] then [⟨0, 1⟩] else s.time.inputs } }
  { given with
    mem := Memory.setAll s.mem base (tableBytes nbits w)
    pc := base
    status := .running
    ie := s.ie && given.timerPoll.interruptCheck.isNone }

end Sys2Proof.Machine
end

