-- ==== Sys2Proof/Safety.lean ====
section
/-! DEFINITION. The terms in which claims speak of the machine: its invariant, a cycle that fetches, and a run
that ends well. -/

namespace Sys2Proof.Machine

/-- The invariant of the machine: memory is in its canonical form, `pc` is in 0..256 (R24), the times are proper
fractions (R32), and the parameters meet the constraints of R8. -/
abbrev State.Inv (s : State) : Prop :=
  s.mem.wf ∧ s.pc ≤ 256 ∧ s.tacc.wf ∧ (∀ t ∈ s.time.inputs, t.wf) ∧ s.params.wf

/-- The next cycle runs an instruction: the machine runs, and the check after the timer poll finds no line
(R90, R97). -/
abbrev State.fetches (s : State) : Prop := s.status = .running ∧ s.timerPoll.interruptCheck = none

/-- The next cycle enters the interrupt of a line (R90, R233). -/
abbrev State.interrupted (s : State) (i : Line) : Prop :=
  s.status = .running ∧ s.timerPoll.interruptCheck = some i

/-- A run of `n` cycles meets no fault and no refusal; a refusal counts as a failure (R226). -/
def State.safeFor (n : Nat) (s : State) : Prop := ∃ t, Sys2Proof.core.run n s = .next t

/-- The run ends normally within `n` cycles (R34, R268). -/
def State.haltsWithin (n : Nat) (s : State) : Prop :=
  ∃ t, Sys2Proof.core.run n s = .next t ∧ t.status = .halted

end Sys2Proof.Machine
end

