-- ==== Sys2Proof/Certificates/Slice0/Obligations.lean ====
section
/-! DEFINITION. The statements for the provers.

A statement about an instruction gives its encoding under the default opcode values (R76), its faults, and for
every register operand the next state that `exec` answers: what is written, and that nothing else is. Register
operands range over the eight registers, through `operand`; the operand bytes of 8 and more are the fault. The
parameters of R8 are those of the state, any at all where nothing is said of them. -/

namespace Sys2Proof.Claims

open Sys2Proof.Machine

/-! ## The vocabulary of the statements -/

/-- The operand byte that names a register (R74). -/
def operand (r : Reg) : Byte := BitVec.ofNat 8 r.val

/-- Every register but those listed holds what it held. -/
def KeepsRegistersBut (ks : List Reg) (s t : State) : Prop := ∀ r, r ∉ ks → t.reg r = s.reg r

/-- Every register holds what it held. -/
def KeepsRegisters (s t : State) : Prop := ∀ r, t.reg r = s.reg r

/-- Every byte of memory reads as it read. -/
def KeepsMemory (s t : State) : Prop := ∀ a, t.mem.get a = s.mem.get a

/-- Every byte of memory but the one at `a` reads as it read. -/
def KeepsMemoryBut (a : Nat) (s t : State) : Prop := ∀ b, b ≠ a → t.mem.get b = s.mem.get b

/-- The latches, the timer, the time source and the parameters are as they were. -/
def KeepsControl (s t : State) : Prop :=
  t.ie = s.ie ∧ t.elig = s.elig ∧ t.tacc = s.tacc ∧ t.time = s.time ∧ t.params = s.params

/-- Both output streams are as they were. -/
def KeepsOutputs (s t : State) : Prop := t.out = s.out ∧ t.msg = s.msg

/-- The flags register, all memory, the control state, the status and the outputs are as they were. -/
def KeepsAllButRegisters (s t : State) : Prop :=
  t.fl = s.fl ∧ KeepsMemory s t ∧ KeepsControl s t ∧ t.status = s.status ∧ KeepsOutputs s t

/-- Everything is as it was but the program counter. -/
def KeepsAllButPc (s t : State) : Prop := KeepsRegisters s t ∧ KeepsAllButRegisters s t

/-- The program counter moves on by `w` bytes (R95), under the constraints of R8. Under any other parameters it moves
by the width of R92, which `WidthIsTheOpcodesTopBitsPlusOne` states for all of them. -/
def Advances (w : Nat) (s t : State) : Prop := s.params.wf → t.pc = s.pc + w

/-- The instruction redirects control flow in this state (R95): it sets `pc` itself. A conditional jump does when its
condition holds (R179), no other instruction but these does. -/
def Redirects (s : State) : Instr → Prop
  | .call _ => True
  | .ret => True
  | .iret => True
  | .jmp _ => True
  | .jeq _ => s.condEqual = true
  | .jne _ => s.condNotEqual = true
  | .jgt _ => s.condGreater = true
  | .jlt _ => s.condLess = true
  | .jle _ => s.condLessEqual = true
  | .jge _ => s.condGreaterEqual = true
  | .nop | .hlt | .push _ | .pop _ | .prn _ | .pra _ | .int _ | .inc _ | .dec _ | .not _ => False
  | .ldi _ _ | .ld _ _ | .st _ _ | .add _ _ | .sub _ _ | .mul _ _ | .div _ _ | .mod _ _ | .cmp _ _ => False
  | .and _ _ | .or _ _ | .xor _ _ | .shl _ _ | .shr _ _ => False

/-- The same state with other contents of the timer: the accumulator and the time source. -/
def withTimer (s : State) (tacc : Seconds) (time : TimeSource) : State :=
  { s with tacc := tacc, time := time }

/-- The fetch faults of an instruction (R91, R94): its operand bytes would reach past address 255. -/
def RaisesFetchFaults (m : Mnemonic) : Prop :=
  ∀ s : State, s.fetches → s.params.wf → s.params.admits m = true → s.pc ≤ 255 →
    s.mem.get s.pc = s.params.opc.value m → 256 < s.pc + (m.format.operandCount + 1) →
    step s = .fault (.addressOutOfRange 256)

/-- An instruction with one register operand raises BadRegisterIndex for a byte of 8 or more (R74). -/
def ChecksRegister (mk : Byte → Instr) : Prop :=
  ∀ s rA, 8 ≤ rA.toNat → exec (mk rA) s = .fault (.badRegisterIndex rA)

/-- An instruction with two register operands checks `rA`, then `rB` (R74). -/
def ChecksRegisters (mk : Byte → Byte → Instr) : Prop :=
  ∀ s rA rB,
    (8 ≤ rA.toNat → exec (mk rA rB) s = .fault (.badRegisterIndex rA)) ∧
    (rA.toNat < 8 → 8 ≤ rB.toNat → exec (mk rA rB) s = .fault (.badRegisterIndex rB))

/-- The encoding of an instruction without operands. It has no operand byte, so the one fault it can meet is that
of the opcode fetch (R91). -/
def EncodedAlone (i : Instr) (op : Byte) : Prop := encode Params.default i = [op]

/-- The rule of an instruction with one register operand: its encoding and its faults. -/
def EncodedWithRegister (m : Mnemonic) (mk : Byte → Instr) (op : Byte) : Prop :=
  (∀ rA, encode Params.default (mk rA) = [op, rA]) ∧ RaisesFetchFaults m ∧ ChecksRegister mk

/-- The rule of an instruction with two register operands: its encoding and its faults. -/
def EncodedWithRegisters (m : Mnemonic) (mk : Byte → Byte → Instr) (op : Byte) : Prop :=
  (∀ rA rB, encode Params.default (mk rA rB) = [op, rA, rB]) ∧ RaisesFetchFaults m ∧ ChecksRegisters mk

/-- The rule of a two-operand ALU instruction that writes `f(A, B)`, a number in 0..255, to `x[rA]`. -/
def AluBinaryRule (m : Mnemonic) (mk : Byte → Byte → Instr) (op : Byte) (f : Nat → Nat → Nat) : Prop :=
  EncodedWithRegisters m mk op ∧
  ∀ (s : State) (a b : Reg), ∃ t, exec (mk (operand a) (operand b)) s = .next t ∧
    (t.reg a).toNat = f (s.reg a).toNat (s.reg b).toNat ∧ Advances 3 s t ∧
    KeepsRegistersBut [a] s t ∧ KeepsAllButRegisters s t

/-- The rule of a one-operand ALU instruction that writes `f(A)`, a number in 0..255, to `x[rA]`. -/
def AluUnaryRule (m : Mnemonic) (mk : Byte → Instr) (op : Byte) (f : Nat → Nat) : Prop :=
  EncodedWithRegister m mk op ∧
  ∀ (s : State) (a : Reg), ∃ t, exec (mk (operand a)) s = .next t ∧
    (t.reg a).toNat = f (s.reg a).toNat ∧ Advances 2 s t ∧
    KeepsRegistersBut [a] s t ∧ KeepsAllButRegisters s t

/-- The rule of a conditional jump (R179) whose condition is `taken`. -/
def JumpRule (m : Mnemonic) (mk : Byte → Instr) (op : Byte) (taken : State → Prop) : Prop :=
  EncodedWithRegister m mk op ∧
  ∀ (s : State) (a : Reg), ∃ t, exec (mk (operand a)) s = .next t ∧
    (taken s → t.pc = (s.reg a).toNat) ∧ (¬ taken s → Advances 2 s t) ∧ KeepsAllButPc s t

/-- The instruction that the decoder reads at the program counter is `i`. -/
def Decodes (s : State) (i : Instr) : Prop := decode s.params s.fetch = .ok i

/-- The bytes of memory from the program counter on begin with `bs`, all of them below address 256. -/
def BytesAtPc (s : State) (bs : List Byte) : Prop :=
  s.pc + bs.length ≤ 256 ∧ ∀ k (h : k < bs.length), s.mem.get (s.pc + k) = bs[k]

/-- The timer ticks in the cycle that starts in this state: TACC + dt is a second or more (R231). -/
def Ticks (s : State) : Prop := 1 ≤ s.tacc.toRat + s.elapsed.toRat

/-- The value the decimal digits of a list of ASCII codes stand for. -/
def decimalValue (ds : List Byte) : Nat := ds.foldl (fun n c => 10 * n + (c.toNat - 48)) 0

/-- The cycles from this state on tick, or do not, as the list says: their timer polls in turn (R231). -/
def TicksAs : List Bool → State → Prop
  | [], _ => True
  | b :: bs, s => (Ticks s ↔ b = true) ∧ TicksAs bs s.timerPoll

/-- The times of the state are proper fractions, as in every reachable state (R32, R40). -/
def TimesProper (s : State) : Prop := s.tacc.wf ∧ ∀ t ∈ s.time.inputs, t.wf

/-- The mask `1 << i` of a line, as a byte. -/
def bit (i : Nat) : Byte := 1#8 <<< i

end Sys2Proof.Claims

open Sys2Proof Sys2Proof.Machine Sys2Proof.Claims

/-! ## Encoding and decoding -/

/-- R73, R76, R77: decoding the encoding of an instruction gives it back, with every operand byte at every value,
whatever follows it, under any parameters that meet the constraints of R8 and admit it. -/
def Obligations.DecodeOfEncodeIsTheInstruction : Prop :=
  ∀ (p : Params) (i : Instr) (rest : List Byte), p.wf → p.admits i.mnemonic = true →
    decode p (encode p i ++ rest) = .ok i

/-- The other direction: bytes that decode to an instruction begin with its encoding, so a word has one meaning
and no operand bit is dropped (R73, R77). -/
def Obligations.DecodedBytesBeginWithTheEncoding : Prop :=
  ∀ (p : Params) (i : Instr) (bs : List Byte), decode p bs = .ok i →
    ∃ rest, bs = encode p i ++ rest

/-- R73, R76: words written out from the table of R76 decode to the instructions they stand for. -/
def Obligations.TableWordsDecode : Prop :=
  decode Params.default [0b00000001#8] = .ok .hlt ∧
  decode Params.default [0b10000010#8, 0b00000011#8, 0b11001000#8] = .ok (.ldi 3#8 200#8) ∧
  decode Params.default [0b10100001#8, 0b00000010#8, 0b00000101#8] = .ok (.sub 2#8 5#8) ∧
  decode Params.default [0b01100110#8, 0b00000110#8] = .ok (.dec 6#8) ∧
  decode Params.default [0b01010000#8, 0b00000111#8] = .ok (.call 7#8) ∧
  decode Params.default [0b01011001#8, 0b00000001#8] = .ok (.jle 1#8) ∧
  decode Params.default [0b00010011#8] = .ok .iret ∧
  decode Params.admitting [0b10000100#8, 0b00000001#8, 0b00000010#8] = .ok (.st 1#8 2#8)

/-- The width is the top two bits of the opcode byte, plus one (R71, R92). Under the constraints of R8 that is the
length of the instruction, 1, 2 or 3; no instruction has both bits set, so an opcode byte that has them is unknown.
Under any parameters at all the cycle takes the width from the opcode byte alone: so many bytes are fetched, as far
as memory goes, and an instruction that does not redirect control flow moves the program counter on by so many (R95).
Two clauses rest on the model's own reading. That an unknown or unadmitted opcode byte has its operand bytes fetched
too, where R93 has the lookup first, is log entry 17 (DEDUCED; a read has no side effect). What happens under an
opcode map that R8 excludes is log entry 2 (DEDUCED). -/
def Obligations.WidthIsTheOpcodesTopBitsPlusOne : Prop :=
  (∀ p : Params, p.wf →
    (∀ i : Instr, (encode p i).length = (p.opc.value i.mnemonic).toNat / 64 + 1 ∧
      (p.opc.value i.mnemonic).toNat / 64 ≠ 3 ∧
      1 ≤ (encode p i).length ∧ (encode p i).length ≤ 3) ∧
    ∀ op : Byte, op.toNat / 64 = 3 → lookup p.opc op = none) ∧
  (∀ s : State, s.pc ≤ 255 → s.fetch.length = min ((s.mem.get s.pc).toNat / 64 + 1) (256 - s.pc)) ∧
  ∀ (s t : State) (i : Instr), s.fetches → Decodes s i → ¬ Redirects s i → step s = .next t →
    t.pc = s.pc + ((s.mem.get s.pc).toNat / 64 + 1)

/-- R78: with the default opcode values, the illegal opcode bytes are exactly those of the list, 222 of them, and
executing one raises UnknownOpcode. -/
def Obligations.IllegalOpcodesAreTheListed : Prop :=
  (∀ op : Byte, lookup OpcodeMap.ls8 op = none ↔
    (0x02 ≤ op.toNat ∧ op.toNat ≤ 0x10) ∨ op.toNat = 0x12 ∨ (0x14 ≤ op.toNat ∧ op.toNat ≤ 0x44) ∨
    (0x49 ≤ op.toNat ∧ op.toNat ≤ 0x4F) ∨ op.toNat = 0x51 ∨ op.toNat = 0x53 ∨
    (0x5B ≤ op.toNat ∧ op.toNat ≤ 0x64) ∨ op.toNat = 0x67 ∨ op.toNat = 0x68 ∨
    (0x6A ≤ op.toNat ∧ op.toNat ≤ 0x81) ∨ (0x85 ≤ op.toNat ∧ op.toNat ≤ 0x9F) ∨
    op.toNat = 0xA5 ∨ op.toNat = 0xA6 ∨ op.toNat = 0xA9 ∨ 0xAE ≤ op.toNat) ∧
  ((List.range 256).filter fun n => (lookup OpcodeMap.ls8 (BitVec.ofNat 8 n)).isNone).length = 222 ∧
  ∀ s : State, s.fetches → s.pc ≤ 255 → s.params.opc = OpcodeMap.ls8 →
    lookup OpcodeMap.ls8 (s.mem.get s.pc) = none → step s = .fault (.unknownOpcode (s.mem.get s.pc))

/-! ## The cycle -/

/-- A step runs the decoded instruction: when no interrupt is entered and the bytes at the program counter decode
to `i`, the step is `exec i`, at the state after the timer poll (R90). -/
def Obligations.StepRunsTheDecodedInstruction : Prop :=
  ∀ (s : State) (i : Instr), s.fetches → Decodes s i → step s = exec i s.timerPoll

/-- The same from the bytes in memory (R64, R73, R90): when they are the encoding of an admitted instruction, the
step is `exec` of it. The bytes are those memory holds now, so a write to them is seen by the very next fetch. -/
def Obligations.StepRunsTheInstructionInMemory : Prop :=
  ∀ (s : State) (i : Instr), s.fetches → s.params.wf → s.params.admits i.mnemonic = true →
    BytesAtPc s (encode s.params i) → step s = exec i s.timerPoll

/-- R96: a terminal status has no further cycle, and no state changes again. That a step then leaves the state as it
is, and does not stop, is the model's choice (log entry 6). -/
def Obligations.TerminalStatusIsFinal : Prop :=
  ∀ (s : State) (n : Nat), s.status ≠ .running → Sys2Proof.core.run n s = .next s

/-- The machine's invariant is kept by every step: memory stays canonical (log entry 10), `pc` stays in 0..256, the
times stay proper fractions and the parameters keep the constraints of R8 (R22, R24, R32, R8). -/
def Obligations.StepKeepsTheInvariant : Prop :=
  ∀ s t : State, s.Inv → step s = .next t → t.Inv

/-- The invariant holds at reset. -/
def Obligations.ResetMeetsTheInvariant : Prop := State.reset.Inv

/-- R260: the reset state, under any parameters, and with the default ones SP is R7 = 0xF4. -/
def Obligations.ResetStateIsTheSpecs : Prop :=
  (∀ p : Params,
    (∀ i, i ≠ p.spReg → (State.resetWith p).reg i = 0#8) ∧ (State.resetWith p).sp = p.spInit ∧
    (State.resetWith p).fl = 0#8 ∧ (State.resetWith p).pc = 0 ∧
    (∀ a, (State.resetWith p).mem.get a = 0#8) ∧
    (State.resetWith p).ie = true ∧ (State.resetWith p).elig = false ∧ (State.resetWith p).tacc.toRat = 0 ∧
    (State.resetWith p).status = .running ∧ (State.resetWith p).out = [] ∧ (State.resetWith p).msg = [] ∧
    ∀ image times a, a < 256 → (State.launch p image times).mem.get a = image.getD a 0#8) ∧
  State.reset.reg 7 = 0xF4#8

/-- R261, which the spec derives from R260 and R233: from launch, the first instruction is at address 0, and no line
can be entered while IM is 0. -/
def Obligations.NoInterruptWhileTheMaskIsZero : Prop :=
  (∀ (p : Params) image times, p.wf → (State.launch p image times).pc = 0 ∧
    (State.launch p image times).im = 0#8 ∧ (State.launch p image times).elig = false) ∧
  ∀ s : State, s.params.wf → s.im = 0#8 → s.timerPoll.interruptCheck = none

/-! ## Faults and refusals -/

/-- R91, in a sentence the spec derives from R52 and R24: the opcode fetch at `pc = 256` raises
AddressOutOfRange(256). -/
def Obligations.OpcodeFetchPastTheTopFaults : Prop :=
  ∀ s : State, s.fetches → s.pc = 256 → step s = .fault (.addressOutOfRange 256)

/-- An operand byte that would be at 256 or more raises AddressOutOfRange(256), for every instruction that has
operands (R94). -/
def Obligations.OperandFetchPastTheTopFaults : Prop := ∀ m : Mnemonic, RaisesFetchFaults m

/-- R221: an opcode byte with no row reports UnknownOpcode(op) and ends the run with exit code 1, wherever it
stands, address 255 included. -/
def Obligations.UnknownOpcodeEndsTheRun : Prop :=
  ∀ s : State, s.fetches → s.pc ≤ 255 → (∀ m, s.params.opc.value m ≠ s.mem.get s.pc) →
    step s = .fault (.unknownOpcode (s.mem.get s.pc)) ∧
    (cycle s).status = .faulted (.unknownOpcode (s.mem.get s.pc)) ∧
    (cycle s).msg = s.msg ++ [.unknownOpcode (s.mem.get s.pc)] ∧
    (cycle s).status.exitCode = some 1

/-- R226: an unconfirmed opcode is refused when `ADMIT_UNCONFIRMED` is false, with no message and no exit code,
before any operand is read. -/
def Obligations.UnconfirmedOpcodeIsRefusedUnlessAdmitted : Prop :=
  ∀ (s : State) (m : Mnemonic), s.fetches → s.params.wf → s.pc ≤ 255 → m.confirmed = false →
    s.mem.get s.pc = s.params.opc.value m → s.params.admitUnconfirmed = false →
    step s = .refused (.unconfirmedOpcode (s.mem.get s.pc)) ∧
    (cycle s).status = .refused (s.mem.get s.pc) ∧ (cycle s).msg = s.msg ∧
    (cycle s).status.exitCode = none

/-- R223: an instruction raises BadRegisterIndex for the first register operand byte that is 8 or more, whether or
not it would use the register; the exit code is 1. -/
def Obligations.BadRegisterOperandFaults : Prop :=
  ∀ (i : Instr) (s : State) (r : Byte),
    i.registerOperands.find? (fun b => decide (8 ≤ b.toNat)) = some r →
    exec i s = .fault (.badRegisterIndex r) ∧ (s.finish (exec i s)).status.exitCode = some 1

/-- R224: PcNotStorable is raised by a push of 256: by a CALL at 254 and by an interrupt entry with `pc = 256`, and by
nothing else. -/
def Obligations.PcNotStorableOnlyInTwoCases : Prop :=
  (∀ s : State, s.push 256 = .error (.pcNotStorable 256)) ∧
  (∀ (s : State) (i : Line), s.interrupted i → s.pc = 256 → step s = .fault (.pcNotStorable 256)) ∧
  (∀ (s : State) (a : Reg), s.pc = 254 → exec (.call (operand a)) s = .fault (.pcNotStorable 256)) ∧
  ∀ (s : State) (v : Nat), s.Inv → step s = .fault (.pcNotStorable v) → v = 256 ∧
    ((∃ i, s.interrupted i ∧ s.pc = 256) ∨ (s.fetches ∧ (∃ a, Decodes s (.call a)) ∧ s.pc = 254))

/-- The exit codes of R38, the columns code, message and exit code of R220, and what R98 fixes of the state after a
fault: the cycle that raises it ends with status Faulted, its message (R37) appended, and OUT as it was. The rest of
that state is the model's choice (log entry 7), and nothing is said of it. -/
def Obligations.FaultsGiveExitCodeOneAndAMessage : Prop :=
  (∀ s : State, (s.halt).status.exitCode = some 0) ∧
  (∀ (s : State) (op : Byte), (s.refuse op).status.exitCode = none) ∧
  (∀ (s : State) (f : Fault), step s = .fault f →
    (cycle s).status = .faulted f ∧ (cycle s).status.exitCode = some 1 ∧
    (cycle s).msg = s.msg ++ [f.message] ∧ (cycle s).out = s.out) ∧
  (∀ op, (Fault.unknownOpcode op).code = 1 ∧ (Fault.unknownOpcode op).message = .unknownOpcode op) ∧
  (∀ a, (Fault.addressOutOfRange a).code = 2 ∧
    (Fault.addressOutOfRange a).message = .crash (.addressOutOfRange a)) ∧
  (∀ r, (Fault.badRegisterIndex r).code = 3 ∧ (Fault.badRegisterIndex r).message = .crash (.badRegisterIndex r)) ∧
  ∀ v, (Fault.pcNotStorable v).code = 4 ∧ (Fault.pcNotStorable v).message = .crash (.pcNotStorable v)

/-! ## Memory and the stack -/

/-- R52: a read at 255 or below gives the cell, a read at 256 or above raises AddressOutOfRange. -/
def Obligations.MemReadFaultsFrom256 : Prop :=
  ∀ (s : State) (a : Nat), (a ≤ 255 → s.memRead a = .ok (s.mem.get a)) ∧
    (256 ≤ a → s.memRead a = .error (.addressOutOfRange a))

/-- R53: a write sets one cell and changes nothing else; it faults at 256 or above, and for the value 256. -/
def Obligations.MemWriteSetsOneCell : Prop :=
  ∀ (s : State) (a v : Nat),
    (a ≤ 255 → v ≤ 255 → ∃ t, s.memWrite a v = .ok t ∧ (t.mem.get a).toNat = v ∧ KeepsMemoryBut a s t ∧
      t = { s with mem := t.mem }) ∧
    (256 ≤ a → s.memWrite a v = .error (.addressOutOfRange a)) ∧
    (a ≤ 255 → v = 256 → s.memWrite a v = .error (.pcNotStorable 256))

/-- Memory has one canonical form (the model's choice, log entry 10): two canonical memories that read alike are the
same data. -/
def Obligations.CanonicalMemoriesThatReadAlikeAreEqual : Prop :=
  ∀ m n : Memory, m.wf → n.wf → (∀ a, a < 256 → m.get a = n.get a) → m = n

/-- R104, which the spec derives from R100 and R101: a pop gives back what was pushed and restores SP, at every value
of SP, when nothing in between wrote SP or the cell. -/
def Obligations.PopUndoesPush : Prop :=
  ∀ (s u : State) (v : Byte), u.params = s.params → u.sp = (s.pushByte v).sp →
    u.mem.get (s.sp - 1).toNat = (s.pushByte v).mem.get (s.sp - 1).toNat →
    u.pop.1 = v ∧ u.pop.2.sp = s.sp

/-- R177, which the spec derives from R174, R175 and R104: a CALL at `p ≤ 253`, then a RET with SP and the cell at SP
as the CALL left them, resumes at `p + 2` with SP back. -/
def Obligations.ReturnUndoesCall : Prop :=
  ∀ (s u : State) (a : Reg), s.pc ≤ 253 → ∃ t, exec (.call (operand a)) s = .next t ∧
    (u.params = t.params → u.sp = t.sp → u.mem.get t.sp.toNat = t.mem.get t.sp.toNat →
      ∃ v, exec .ret u = .next v ∧ v.pc = s.pc + 2 ∧ v.sp = s.sp)

/-! ## The timer and the interrupts -/

/-- R231, and R232, which the spec derives from it. The timer poll adds the cycle's `dt`; from one second on it sets
IS[0] and ELIG and subtracts the second, once. It runs in every cycle, whatever IE, IM and ELIG are. The `dt` of a
cycle is the first input given, if any is; else it is free, and these clauses hold whatever it is. From every state
whose TACC is less than a second, some inputs make the cycles to come tick as any list of Booleans says. (Where the
inputs stand and what exact fractions they are is the model's choice, log entries 4 and 11.) -/
def Obligations.TimerPollTicksOncePerCycle : Prop :=
  (∀ s t : State, s.status = .running → step s = .next t →
    t.tacc = s.timerPoll.tacc ∧ t.time = s.timerPoll.time) ∧
  (∀ s : State, TimesProper s →
    (1 ≤ s.tacc.toRat + s.elapsed.toRat →
      s.timerPoll.tacc.toRat = s.tacc.toRat + s.elapsed.toRat - 1 ∧ s.timerPoll.elig = true ∧
      s.timerPoll.is = s.is ||| bit 0 ∧ KeepsRegistersBut [s.params.isReg] s s.timerPoll) ∧
    (s.tacc.toRat + s.elapsed.toRat < 1 →
      s.timerPoll.tacc.toRat = s.tacc.toRat + s.elapsed.toRat ∧ s.timerPoll.elig = s.elig ∧
      KeepsRegisters s s.timerPoll) ∧
    s.timerPoll.time.inputs = s.time.inputs.tail ∧ s.timerPoll.time.taken = s.time.taken + 1 ∧
    s.timerPoll.pc = s.pc ∧ s.timerPoll.fl = s.fl ∧ s.timerPoll.ie = s.ie ∧
    KeepsMemory s s.timerPoll ∧ KeepsOutputs s s.timerPoll ∧ s.timerPoll.status = s.status ∧
    s.timerPoll.params = s.params) ∧
  (∀ (s : State) (dt : Seconds) (rest : List Seconds), s.time.inputs = dt :: rest → s.elapsed = dt) ∧
  ∀ (s : State) (bs : List Bool), s.tacc.wf → s.tacc.toRat < 1 →
    ∃ times : List Seconds, (∀ t ∈ times, t.wf) ∧
      TicksAs bs { s with time := { s.time with inputs := times } }

/-- R233: the interrupt check finds nothing unless ELIG and IE are set, and then the lowest line that is both
pending and enabled. It runs right after the timer poll, and the line it finds is entered. -/
def Obligations.InterruptCheckFindsTheLowestLine : Prop :=
  ∀ s : State,
    (s.status = .running → ∀ i : Line, s.timerPoll.interruptCheck = some i →
      step s = outcomeOf (s.timerPoll.enterInterrupt i)) ∧
    ((s.elig = false ∨ s.ie = false) → s.interruptCheck = none) ∧
    (s.elig = true → s.ie = true →
      (∀ i : Line, s.interruptCheck = some i ↔
        (s.im.getLsbD i.val = true ∧ s.is.getLsbD i.val = true ∧
          ∀ j : Line, j < i → ¬ (s.im.getLsbD j.val = true ∧ s.is.getLsbD j.val = true))) ∧
      (s.interruptCheck = none ↔ ∀ i : Line, ¬ (s.im.getLsbD i.val = true ∧ s.is.getLsbD i.val = true)))

/-- R234 (b), which the spec derives from R90, R231 and R233: a tick counts before the check of its own cycle, and
line 0 wins: with IM[0] = 1 and IE = 1 the cycle of the tick enters line 0. -/
def Obligations.TickEntersLineZeroInItsOwnCycle : Prop :=
  ∀ s : State, TimesProper s → s.params.wf → s.status = .running → Ticks s → s.im.getLsbD 0 = true →
    s.ie = true → s.interrupted 0

/-- R235: an interrupt entry clears IE and the line's pending bit, stores the 10-byte frame below SP, moves SP down by
10 and goes to the byte in the vector slot; nothing else changes. A `pc` of 256 cannot be pushed. The frame clauses
are derived: for `SP_REG = 7` they are R236, which the spec derives itself; for any other `SP_REG` they are what the
model reads from the pseudocode of R235 (DEDUCED, log entry 19): `x[k]` is at S - 3 - k, and SP itself is saved as it
was before its own push. -/
def Obligations.InterruptEntrySavesTheFrame : Prop :=
  ∀ (s : State) (i : Line), s.interrupted i → s.params.wf →
    (s.pc = 256 → step s = .fault (.pcNotStorable 256)) ∧
    (s.pc ≤ 255 → ∃ t, step s = .next t ∧
      (let u := s.timerPoll
       let S := u.sp
       t.ie = false ∧ t.is = u.is &&& ~~~ bit i.val ∧ t.sp = S - 10#8 ∧
       KeepsRegistersBut [u.params.isReg, u.params.spReg] u t ∧
       (t.mem.get (S - 1#8).toNat).toNat = s.pc ∧ t.mem.get (S - 2#8).toNat = s.fl ∧
       (∀ k : Reg, t.mem.get (S - 3#8 - BitVec.ofNat 8 k.val).toNat =
         if k = u.params.spReg then S - 2#8 - BitVec.ofNat 8 k.val else t.reg k) ∧
       (∀ a : Byte, 10 < (S - a).toNat ∨ a = S → t.mem.get a.toNat = s.mem.get a.toNat) ∧
       t.pc = (t.mem.get (u.params.vtBase.toNat + i.val)).toNat ∧
       t.fl = s.fl ∧ t.elig = u.elig ∧ t.tacc = u.tacc ∧ t.time = u.time ∧ t.params = s.params ∧
       t.status = s.status ∧ KeepsOutputs s t))

/-- R202, which the spec derives from R201, R235 and R236: an interrupt entry with stack pointer S, then an IRET with
SP = S - 10 and the frame as the entry left it, gives back every register but the serviced bit of IS, FL, `pc` and SP,
and sets IE. For an `SP_REG` other than 7 it rests on log entry 19 (DEDUCED). -/
def Obligations.IretUndoesInterruptEntry : Prop :=
  ∀ (s h : State) (i : Line), s.interrupted i → s.params.wf → s.pc ≤ 255 →
    ∃ e, step s = .next e ∧
      (h.params = s.params → h.sp = s.timerPoll.sp - 10#8 →
        (∀ k, 1 ≤ k → k ≤ 10 → h.mem.get (s.timerPoll.sp - BitVec.ofNat 8 k).toNat =
          e.mem.get (s.timerPoll.sp - BitVec.ofNat 8 k).toNat) →
        ∃ t, exec .iret h = .next t ∧
          KeepsRegistersBut [s.params.isReg] s.timerPoll t ∧ t.is = s.timerPoll.is &&& ~~~ bit i.val ∧
          t.fl = s.fl ∧ t.pc = s.pc ∧ t.sp = s.timerPoll.sp ∧ t.ie = true)

/-- R240, which the spec derives from R31, R233, R235 and R201: interrupts do not nest: an entry leaves IE = 0, and
while IE = 0 no line is found, so the cycle runs the instruction at `pc`, whatever is pending. -/
def Obligations.InterruptsDoNotNest : Prop :=
  (∀ (s t : State) (i : Line), s.interrupted i → step s = .next t → t.ie = false) ∧
  ∀ (s : State) (i : Instr), s.status = .running → s.ie = false → Decodes s i →
    s.fetches ∧ step s = exec i s.timerPoll

/-- R239: a step that runs IRET sets IE and no other step does; a step that enters an interrupt clears it and no other
step does (R30). -/
def Obligations.OnlyIretSetsAndOnlyEntryClearsIe : Prop :=
  ∀ s t : State, step s = .next t →
    (s.fetches → Decodes s .iret → t.ie = true) ∧ (∀ i, s.interrupted i → t.ie = false) ∧
    (s.ie = false → t.ie = true → s.fetches ∧ Decodes s .iret) ∧
    (s.ie = true → t.ie = false → ∃ i, s.interrupted i)

/-- R31: no step clears ELIG, and only a tick, or INT when `INT_SETS_ELIG` is true, sets it. -/
def Obligations.OnlyTickAndIntSetEligAndNothingClearsIt : Prop :=
  ∀ s t : State, TimesProper s → step s = .next t →
    (s.elig = true → t.elig = true) ∧
    (s.elig = false → t.elig = true →
      Ticks s ∨ (s.params.intSetsElig = true ∧ s.fetches ∧ ∃ a, Decodes s (.int a)))

/-! ## Who writes what -/

/-- R27: of all steps, only one that runs CMP or IRET changes FL. -/
def Obligations.OnlyCmpAndIretWriteFlags : Prop :=
  ∀ s t : State, step s = .next t → t.fl ≠ s.fl →
    s.fetches ∧ (Decodes s .iret ∨ ∃ a b, Decodes s (.cmp a b))

/-- R54: of all steps, only an interrupt entry and one that runs PUSH, CALL or ST changes memory. -/
def Obligations.OnlyPushesAndStoreWriteMemory : Prop :=
  ∀ s t : State, step s = .next t → ¬ KeepsMemory s t →
    (∃ i, s.interrupted i) ∨
    (s.fetches ∧ ∃ a, Decodes s (.push a) ∨ Decodes s (.call a) ∨ ∃ b, Decodes s (.st a b))

/-- R32, R244: no instruction reads or writes the timer. It writes neither TACC nor the time source nor the
parameters; and with any other contents of the timer it answers the same fault, or the same state but for the timer,
so what it does depends on none of them. (The time source and the parameters are the model's own fields, log entries
4 and 1.) -/
def Obligations.NoInstructionTouchesTheTimer : Prop :=
  ∀ (i : Instr) (s : State) (tacc : Seconds) (time : TimeSource),
    (∀ t, exec i s = .next t →
      t.tacc = s.tacc ∧ t.time = s.time ∧ t.params = s.params ∧
      exec i (withTimer s tacc time) = .next (withTimer t tacc time)) ∧
    ∀ f, exec i s = .fault f → exec i (withTimer s tacc time) = .fault f

/-- R36, R37: OUT and MSG are append-only, and only PRN and PRA append to OUT. -/
def Obligations.OutputsAreAppendOnly : Prop :=
  ∀ s t : State, step s = .next t → s.out <+: t.out ∧ s.msg <+: t.msg ∧
    (t.out ≠ s.out → s.fetches ∧ ∃ a, Decodes s (.prn a) ∨ Decodes s (.pra a))

/-- R64, which the spec derives from R50 and R61: a store into the next instruction's opcode byte is what the next
fetch reads. -/
def Obligations.StoreIsSeenByTheNextFetch : Prop :=
  ∀ (s t : State) (a b : Reg), exec (.st (operand a) (operand b)) s = .next t → (s.reg a).toNat = t.pc →
    t.fetch.head? = some (s.reg b)

/-! ## Halt, immediate load, console output -/

/-- R110: HLT. -/
def Obligations.HltHaltsAndAdvances : Prop :=
  EncodedAlone .hlt 0x01#8 ∧
  ∀ s : State, ∃ t, exec .hlt s = .next t ∧ t.status = .halted ∧ t.status.exitCode = some 0 ∧ Advances 1 s t ∧
    KeepsRegisters s t ∧ t.fl = s.fl ∧ KeepsMemory s t ∧ KeepsControl s t ∧ KeepsOutputs s t

/-- R111: LDI rA, imm. The one operand form with an immediate: any byte, unchanged (R75). -/
def Obligations.LdiLoadsTheImmediate : Prop :=
  (∀ rA imm, encode Params.default (.ldi rA imm) = [0x82#8, rA, imm]) ∧ RaisesFetchFaults .ldi ∧
  (∀ s rA imm, 8 ≤ rA.toNat → exec (.ldi rA imm) s = .fault (.badRegisterIndex rA)) ∧
  ∀ (s : State) (a : Reg) (imm : Byte), ∃ t, exec (.ldi (operand a) imm) s = .next t ∧
    t.reg a = imm ∧ Advances 3 s t ∧ KeepsRegistersBut [a] s t ∧ KeepsAllButRegisters s t

/-- R112: PRN rA appends the decimal digits, most significant first and without leading zeros, and a newline. -/
def Obligations.PrnPrintsTheDecimal : Prop :=
  EncodedWithRegister .prn .prn 0x47#8 ∧
  ∀ (s : State) (a : Reg), ∃ t ds, exec (.prn (operand a)) s = .next t ∧
    t.out = s.out ++ ds ++ [10#8] ∧ ds ≠ [] ∧ (∀ c ∈ ds, 48 ≤ c.toNat ∧ c.toNat ≤ 57) ∧
    decimalValue ds = (s.reg a).toNat ∧ (ds.head? = some 48#8 → ds = [48#8]) ∧
    Advances 2 s t ∧ KeepsRegisters s t ∧ t.fl = s.fl ∧ KeepsMemory s t ∧ KeepsControl s t ∧
    t.status = s.status ∧ t.msg = s.msg

/-- R113: PRA rA appends the register's value as one code point. -/
def Obligations.PraPrintsTheCodePoint : Prop :=
  EncodedWithRegister .pra .pra 0x48#8 ∧
  ∀ (s : State) (a : Reg), ∃ t, exec (.pra (operand a)) s = .next t ∧
    t.out = s.out ++ [s.reg a] ∧ Advances 2 s t ∧ KeepsRegisters s t ∧ t.fl = s.fl ∧ KeepsMemory s t ∧
    KeepsControl s t ∧ t.status = s.status ∧ t.msg = s.msg

/-! ## The ALU -/

/-- R130, R131, R132: ADD, SUB and MUL, reduced mod 256. -/
def Obligations.AddSubMulReduceModulo256 : Prop :=
  AluBinaryRule .add .add 0xA0#8 (fun a b => (a + b) % 256) ∧
  AluBinaryRule .sub .sub 0xA1#8 (fun a b => (((a : Int) - (b : Int)) % 256).toNat) ∧
  AluBinaryRule .mul .mul 0xA2#8 (fun a b => (a * b) % 256)

/-- R135, R136, R137: INC, DEC and NOT. -/
def Obligations.IncDecNotOfOneRegister : Prop :=
  AluUnaryRule .inc .inc 0x65#8 (fun a => (a + 1) % 256) ∧
  AluUnaryRule .dec .dec 0x66#8 (fun a => (((a : Int) - 1) % 256).toNat) ∧
  AluUnaryRule .not .not 0x69#8 (fun a => 255 - a)

/-- R138, R139, R140: AND, OR and XOR. -/
def Obligations.AndOrXorAreBitwise : Prop :=
  AluBinaryRule .and .and 0xA8#8 (fun a b => a &&& b) ∧
  AluBinaryRule .or .or 0xAA#8 (fun a b => a ||| b) ∧
  AluBinaryRule .xor .xor 0xAB#8 (fun a b => a ^^^ b)

/-- R141, R142: SHL and SHR by the whole byte, so an amount of 8 or more gives 0. -/
def Obligations.ShiftsTakeTheWholeAmount : Prop :=
  AluBinaryRule .shl .shl 0xAC#8 (fun a b => (a * 2 ^ b) % 256) ∧
  AluBinaryRule .shr .shr 0xAD#8 (fun a b => a / 2 ^ b)

/-- R133, R227: DIV writes the floor quotient; a zero divisor reports, halts with exit code 0 and changes no
register. Both advance. -/
def Obligations.DivQuotientOrHalt : Prop :=
  EncodedWithRegisters .div .div 0xA3#8 ∧
  ∀ (s : State) (a b : Reg), ∃ t, exec (.div (operand a) (operand b)) s = .next t ∧ Advances 3 s t ∧
    (s.reg b ≠ 0#8 → (t.reg a).toNat = (s.reg a).toNat / (s.reg b).toNat ∧ KeepsRegistersBut [a] s t ∧
      t.status = s.status ∧ t.msg = s.msg) ∧
    (s.reg b = 0#8 → KeepsRegisters s t ∧ t.status = .halted ∧ t.status.exitCode = some 0 ∧
      t.msg = s.msg ++ [.divByZero]) ∧
    t.fl = s.fl ∧ KeepsMemory s t ∧ KeepsControl s t ∧ t.out = s.out

/-- R134, R228: MOD writes the remainder; a zero divisor only reports. Both advance. -/
def Obligations.ModRemainderOrReport : Prop :=
  EncodedWithRegisters .mod .mod 0xA4#8 ∧
  ∀ (s : State) (a b : Reg), ∃ t, exec (.mod (operand a) (operand b)) s = .next t ∧ Advances 3 s t ∧
    (s.reg b ≠ 0#8 → (t.reg a).toNat = (s.reg a).toNat % (s.reg b).toNat ∧ KeepsRegistersBut [a] s t ∧
      t.msg = s.msg) ∧
    (s.reg b = 0#8 → KeepsRegisters s t ∧ t.msg = s.msg ++ [.modByZero]) ∧
    t.fl = s.fl ∧ KeepsMemory s t ∧ KeepsControl s t ∧ t.status = s.status ∧ t.out = s.out

/-- R143: CMP overwrites FL with exactly one of E, G and L, by the unsigned order, and writes no register. -/
def Obligations.CmpSetsOneFlag : Prop :=
  EncodedWithRegisters .cmp .cmp 0xA7#8 ∧
  ∀ (s : State) (a b : Reg), ∃ t, exec (.cmp (operand a) (operand b)) s = .next t ∧
    ((s.reg a).toNat = (s.reg b).toNat → t.fl = bit s.params.flE.val) ∧
    ((s.reg b).toNat < (s.reg a).toNat → t.fl = bit s.params.flG.val) ∧
    ((s.reg a).toNat < (s.reg b).toNat → t.fl = bit s.params.flL.val) ∧
    Advances 3 s t ∧ KeepsRegisters s t ∧ KeepsMemory s t ∧ KeepsControl s t ∧ t.status = s.status ∧
    KeepsOutputs s t

/-! ## Stack and control transfer -/

/-- R172: PUSH rA stores the value from before the decrement at SP - 1, mod 256. -/
def Obligations.PushStoresBelowTheStackPointer : Prop :=
  EncodedWithRegister .push .push 0x45#8 ∧
  ∀ (s : State) (a : Reg), ∃ t, exec (.push (operand a)) s = .next t ∧
    t.sp = s.sp - 1#8 ∧ t.mem.get (s.sp - 1#8).toNat = s.reg a ∧ KeepsMemoryBut (s.sp - 1#8).toNat s t ∧
    Advances 2 s t ∧ KeepsRegistersBut [s.params.spReg] s t ∧ t.fl = s.fl ∧ KeepsControl s t ∧
    t.status = s.status ∧ KeepsOutputs s t

/-- R173: POP rA reads at SP, increments SP, then writes the register: POP of SP leaves the popped byte in SP. -/
def Obligations.PopReadsAtTheStackPointer : Prop :=
  EncodedWithRegister .pop .pop 0x46#8 ∧
  ∀ (s : State) (a : Reg), ∃ t, exec (.pop (operand a)) s = .next t ∧
    t.reg a = s.mem.get s.sp.toNat ∧ (a ≠ s.params.spReg → t.sp = s.sp + 1#8) ∧
    Advances 2 s t ∧ KeepsRegistersBut [a, s.params.spReg] s t ∧ KeepsAllButRegisters s t

/-- R174: CALL rA pushes `pc + 2` and goes to the target, read after the push; at 254 it faults. -/
def Obligations.CallPushesTheReturnAddress : Prop :=
  EncodedWithRegister .call .call 0x50#8 ∧
  (∀ (s : State) (a : Reg), s.pc = 254 → exec (.call (operand a)) s = .fault (.pcNotStorable 256)) ∧
  ∀ (s : State) (a : Reg), s.pc ≤ 253 → ∃ t, exec (.call (operand a)) s = .next t ∧
    t.sp = s.sp - 1#8 ∧ (t.mem.get (s.sp - 1#8).toNat).toNat = s.pc + 2 ∧
    KeepsMemoryBut (s.sp - 1#8).toNat s t ∧
    t.pc = (if a = s.params.spReg then (s.sp - 1#8).toNat else (s.reg a).toNat) ∧
    KeepsRegistersBut [s.params.spReg] s t ∧ t.fl = s.fl ∧ KeepsControl s t ∧ t.status = s.status ∧
    KeepsOutputs s t

/-- R175: RET pops the program counter. -/
def Obligations.RetPopsTheProgramCounter : Prop :=
  EncodedAlone .ret 0x11#8 ∧
  ∀ s : State, ∃ t, exec .ret s = .next t ∧ t.pc = (s.mem.get s.sp.toNat).toNat ∧ t.sp = s.sp + 1#8 ∧
    KeepsRegistersBut [s.params.spReg] s t ∧ KeepsAllButRegisters s t

/-- R179 to R183: JEQ, JNE, JGT and JLT, by the bits E, G and L of FL. -/
def Obligations.JumpsOnOneFlag : Prop :=
  JumpRule .jeq .jeq 0x55#8 (fun s => s.fl.getLsbD s.params.flE.val = true) ∧
  JumpRule .jne .jne 0x56#8 (fun s => s.fl.getLsbD s.params.flE.val = false) ∧
  JumpRule .jgt .jgt 0x57#8 (fun s => s.fl.getLsbD s.params.flG.val = true) ∧
  JumpRule .jlt .jlt 0x58#8 (fun s => s.fl.getLsbD s.params.flL.val = true)

/-- R184, R185: JGE and JLE under both readings of `COND_READING`. -/
def Obligations.JumpsOnTwoFlagsInBothReadings : Prop :=
  JumpRule .jge .jge 0x5A#8 (fun s =>
    (s.params.condReading = .bits ∧
      (s.fl.getLsbD s.params.flG.val = true ∨ s.fl.getLsbD s.params.flE.val = true)) ∨
    (s.params.condReading = .notLess ∧ s.fl ≠ bit s.params.flL.val)) ∧
  JumpRule .jle .jle 0x59#8 (fun s =>
    (s.params.condReading = .bits ∧
      (s.fl.getLsbD s.params.flL.val = true ∨ s.fl.getLsbD s.params.flE.val = true)) ∨
    (s.params.condReading = .notLess ∧ s.fl ≠ bit s.params.flG.val))

/-- R178: the two readings agree on the values that CMP leaves, and differ when FL is 0. -/
def Obligations.ReadingsAgreeOnOneHotFlags : Prop :=
  ∀ (s u : State), s.params.wf → s.params.condReading = .bits →
    u = { s with params := { s.params with condReading := .notLess } } →
    ((s.fl = bit s.params.flE.val ∨ s.fl = bit s.params.flG.val ∨ s.fl = bit s.params.flL.val) →
      u.condGreaterEqual = s.condGreaterEqual ∧ u.condLessEqual = s.condLessEqual) ∧
    (s.fl = 0#8 → s.condGreaterEqual = false ∧ u.condGreaterEqual = true ∧
      s.condLessEqual = false ∧ u.condLessEqual = true)

/-! ## Interrupt instructions -/

/-- R200: INT rA replaces IS, sets ELIG if `INT_SETS_ELIG`, and advances. -/
def Obligations.IntReplacesTheInterruptStatus : Prop :=
  EncodedWithRegister .int .int 0x52#8 ∧
  ∀ (s : State) (a : Reg), ∃ t, exec (.int (operand a)) s = .next t ∧
    t.is = s.reg a ∧ (s.params.intSetsElig = true → t.elig = true) ∧
    (s.params.intSetsElig = false → t.elig = s.elig) ∧ Advances 2 s t ∧
    KeepsRegistersBut [s.params.isReg] s t ∧ t.fl = s.fl ∧ KeepsMemory s t ∧ t.ie = s.ie ∧ t.tacc = s.tacc ∧
    t.time = s.time ∧ t.params = s.params ∧ t.status = s.status ∧ KeepsOutputs s t

/-- IRET pops `x[7]` down to `x[0]`, FL and `pc`, and sets IE (R201). The registers above SP_REG come from the old
stack, SP then is the byte popped into it (R101), and the other pops go on from there; with `SP_REG = 7` all but the
first do, as R201 says. For any other `SP_REG` that is the model's reading of R201 and R101 (DEDUCED, log entry
19). -/
def Obligations.IretPopsRegistersFlagsAndPc : Prop :=
  EncodedAlone .iret 0x13#8 ∧
  ∀ s : State, ∃ t, exec .iret s = .next t ∧
    (let j := s.params.spReg
     let v := s.mem.get (s.sp + (7#8 - BitVec.ofNat 8 j.val)).toNat
     (∀ k : Reg, j < k → t.reg k = s.mem.get (s.sp + (7#8 - BitVec.ofNat 8 k.val)).toNat) ∧
     (∀ k : Reg, k < j → t.reg k = s.mem.get (v + (BitVec.ofNat 8 j.val - 1#8 - BitVec.ofNat 8 k.val)).toNat) ∧
     t.fl = s.mem.get (v + BitVec.ofNat 8 j.val).toNat ∧
     t.pc = (s.mem.get (v + BitVec.ofNat 8 j.val + 1#8).toNat).toNat ∧
     t.sp = v + BitVec.ofNat 8 j.val + 2#8) ∧
    t.ie = true ∧ KeepsMemory s t ∧ t.elig = s.elig ∧ t.tacc = s.tacc ∧ t.time = s.time ∧
    t.params = s.params ∧ t.status = s.status ∧ KeepsOutputs s t

/-! ## The unconfirmed instructions, admitted -/

/-- R211, R212: NOP only advances, JMP goes to the register's value. -/
def Obligations.NopAdvancesAndJmpJumps : Prop :=
  EncodedAlone .nop 0x00#8 ∧ EncodedWithRegister .jmp .jmp 0x54#8 ∧
  (∀ s : State, ∃ t, exec .nop s = .next t ∧ Advances 1 s t ∧ KeepsAllButPc s t) ∧
  ∀ (s : State) (a : Reg), ∃ t, exec (.jmp (operand a)) s = .next t ∧ t.pc = (s.reg a).toNat ∧ KeepsAllButPc s t

/-- R213: LD rA, rB loads the byte at the address in `rB`. -/
def Obligations.LdLoadsFromTheAddressInRb : Prop :=
  EncodedWithRegisters .ld .ld 0x83#8 ∧
  ∀ (s : State) (a b : Reg), ∃ t, exec (.ld (operand a) (operand b)) s = .next t ∧
    t.reg a = s.mem.get (s.reg b).toNat ∧ Advances 3 s t ∧ KeepsRegistersBut [a] s t ∧ KeepsAllButRegisters s t

/-- R214: ST rA, rB stores the value of `rB` at the address in `rA`. -/
def Obligations.StStoresAtTheAddressInRa : Prop :=
  EncodedWithRegisters .st .st 0x84#8 ∧
  ∀ (s : State) (a b : Reg), ∃ t, exec (.st (operand a) (operand b)) s = .next t ∧
    t.mem.get (s.reg a).toNat = s.reg b ∧ KeepsMemoryBut (s.reg a).toNat s t ∧ Advances 3 s t ∧
    KeepsRegisters s t ∧ t.fl = s.fl ∧ KeepsControl s t ∧ t.status = s.status ∧ KeepsOutputs s t
end

