-- ==== Sys2Proof/Laws/Decode.lean ====
section
/-! SUPPORT. The opcode table: every mnemonic is in it, and the lookup finds what the table holds (rule R77). -/

namespace Sys2Proof

theorem Mnemonic.mem_all (m : Mnemonic) : m ∈ Mnemonic.all := by
  cases m <;> decide

/-- A lookup that finds a row finds one with that opcode byte. -/
theorem value_of_lookup {t : OpcodeMap} {op : Byte} {m : Mnemonic} (h : lookup t op = some m) : t.value m = op := by
  simpa using List.find?_some h

/-- A lookup finds nothing exactly when no row has the opcode byte (R77, R78). -/
theorem lookup_eq_none {t : OpcodeMap} {op : Byte} : lookup t op = none ↔ ∀ m, t.value m ≠ op := by
  simp only [lookup, List.find?_eq_none, beq_iff_eq]
  exact ⟨fun h m => h m m.mem_all, fun h m _ => h m⟩

/-- With distinct opcode bytes, the lookup of a mnemonic's opcode byte gives the mnemonic. -/
theorem lookup_value {p : Params} (h : p.wf) (m : Mnemonic) : lookup p.opc (p.opc.value m) = some m := by
  have hd : (Mnemonic.all.map p.opc.value).Nodup := h.2.2.2.2.2.2.2.1
  cases hl : lookup p.opc (p.opc.value m) with
  | none => exact absurd rfl (lookup_eq_none.mp hl m)
  | some n =>
    have hn := value_of_lookup hl
    exact congrArg some (List.inj_on_of_nodup_map hd n.mem_all m.mem_all hn)

/-- An instruction declares as many operand bytes as its format has (R73). -/
theorem Instr.length_operandBytes (i : Instr) : i.operandBytes.length = i.mnemonic.format.operandCount := by
  cases i <;> rfl

/-- The operand bytes of an instruction, put after its mnemonic, give it back (R73). -/
theorem assemble_operandBytes (i : Instr) : assemble i.mnemonic i.operandBytes = some i := by
  cases i <;> rfl

/-- An instruction that was assembled has the mnemonic, and its operand bytes come first (R73). -/
theorem assemble_some {m : Mnemonic} {bs : List Byte} {i : Instr} (h : assemble m bs = some i) :
    i.mnemonic = m ∧ ∃ rest, bs = i.operandBytes ++ rest := by
  rcases bs with _ | ⟨a, _ | ⟨b, bs⟩⟩ <;> cases m <;>
    simp only [assemble, oneOperand, twoOperands, Option.some.injEq, reduceCtorEq] at h <;> subst h <;>
    exact ⟨rfl, _, rfl⟩

/-- Operand bytes that are all there are read, whatever follows them (R94). -/
theorem readOperands_append {n : Nat} {bs : List Byte} (h : bs.length = n) (rest : List Byte) :
    readOperands n (bs ++ rest) = .ok bs := by
  subst h
  simp [readOperands]

/-- What reading the operand bytes gives: the first `n` of the bytes, and there are that many. -/
theorem readOperands_ok {n : Nat} {bs ops : List Byte} (h : readOperands n bs = .ok ops) :
    n ≤ bs.length ∧ ops = bs.take n := by
  unfold readOperands at h
  split at h
  · cases h
  · injection h with h
    exact ⟨by omega, h.symm⟩

/-- Everything a decode that succeeds can do (R77, R92, R94): the first byte is the opcode of the instruction's
mnemonic, which is admitted; as many bytes follow as its bits 7:6 say; they begin with the operand bytes. -/
theorem decode_ok {p : Params} {bs : List Byte} {i : Instr} (h : decode p bs = .ok i) :
    p.admits i.mnemonic = true ∧ ∃ rest, bs = p.opc.value i.mnemonic :: rest ∧
      operandCountOf (p.opc.value i.mnemonic) ≤ rest.length ∧ i.operandBytes <+: rest := by
  rcases bs with _ | ⟨op, rest⟩
  · cases h
  · simp only [decode] at h
    split at h
    · cases h
    · rename_i m hl
      split at h
      · rename_i ha
        split at h
        · cases h
        · rename_i ops hr
          split at h
          · rename_i j hj
            injection h with h; subst h
            obtain ⟨rfl, r, hops⟩ := assemble_some hj
            obtain ⟨hn, htake⟩ := readOperands_ok hr
            have hv := value_of_lookup hl
            refine ⟨ha, rest, by rw [hv], by rw [hv]; exact hn, ?_⟩
            exact (hops ▸ List.prefix_append _ _ : j.operandBytes <+: ops).trans (htake ▸ List.take_prefix _ _)
          · cases h
      · cases h

/-- The default parameters meet the constraints of R8. -/
theorem Params.wf_default : Params.default.wf := by decide

theorem Params.wf_admitting : Params.admitting.wf := by decide

end Sys2Proof
end

