-- ==== Sys2Proof/Laws/Operands.lean ====
section
/-! SUPPORT. What the operand forms can do (rules R12, R74). -/

namespace Sys2Proof.Machine

variable {rA rB : Byte} {s t : State}

theorem withRegister_of_lt (h : rA.toNat < 8) (k : Reg → Host.Outcome State Fault Refusal) :
    withRegister rA k = k ⟨rA.toNat, h⟩ := by
  simp [withRegister, registerOf, h]

theorem withRegister_of_ge (h : 8 ≤ rA.toNat) (k : Reg → Host.Outcome State Fault Refusal) :
    withRegister rA k = .fault (.badRegisterIndex rA) := by
  have h' : ¬ rA.toNat < 8 := by omega
  simp [withRegister, registerOf, h']

theorem withRegisters_of_lt (hA : rA.toNat < 8) (hB : rB.toNat < 8)
    (k : Reg → Reg → Host.Outcome State Fault Refusal) :
    withRegisters rA rB k = k ⟨rA.toNat, hA⟩ ⟨rB.toNat, hB⟩ := by
  simp [withRegisters, withRegister_of_lt hA, withRegister_of_lt hB]

theorem withRegisters_of_ge_left (h : 8 ≤ rA.toNat) (k : Reg → Reg → Host.Outcome State Fault Refusal) :
    withRegisters rA rB k = .fault (.badRegisterIndex rA) := withRegister_of_ge h _

theorem withRegisters_of_ge_right (hA : rA.toNat < 8) (h : 8 ≤ rB.toNat)
    (k : Reg → Reg → Host.Outcome State Fault Refusal) :
    withRegisters rA rB k = .fault (.badRegisterIndex rB) := by
  simp [withRegisters, withRegister_of_lt hA, withRegister_of_ge h]

/-- An instruction with one register operand answers a next state only for a byte that names a register. -/
theorem withRegister_next {k : Reg → Host.Outcome State Fault Refusal} (h : withRegister rA k = .next t) :
    ∃ a : Reg, a.val = rA.toNat ∧ k a = .next t := by
  by_cases hA : rA.toNat < 8
  · exact ⟨⟨rA.toNat, hA⟩, rfl, by rwa [withRegister_of_lt hA] at h⟩
  · rw [withRegister_of_ge (by omega)] at h; cases h

/-- An instruction with two register operands answers a next state only for bytes that name registers. -/
theorem withRegisters_next {k : Reg → Reg → Host.Outcome State Fault Refusal}
    (h : withRegisters rA rB k = .next t) :
    ∃ a b : Reg, a.val = rA.toNat ∧ b.val = rB.toNat ∧ k a b = .next t := by
  obtain ⟨a, ha, h⟩ := withRegister_next h
  obtain ⟨b, hb, h⟩ := withRegister_next h
  exact ⟨a, b, ha, hb, h⟩

/-- The only fault the operand check of F1R raises is BadRegisterIndex. -/
theorem withRegister_fault {k : Reg → Host.Outcome State Fault Refusal} {f : Fault}
    (h : withRegister rA k = .fault f) : f = .badRegisterIndex rA ∨ ∃ a, k a = .fault f := by
  by_cases hA : rA.toNat < 8
  · exact .inr ⟨_, by rwa [withRegister_of_lt hA] at h⟩
  · rw [withRegister_of_ge (by omega)] at h
    injection h with h
    exact .inl h.symm

theorem withRegisters_fault {k : Reg → Reg → Host.Outcome State Fault Refusal} {f : Fault}
    (h : withRegisters rA rB k = .fault f) :
    f = .badRegisterIndex rA ∨ f = .badRegisterIndex rB ∨ ∃ a b, k a b = .fault f := by
  rcases withRegister_fault h with h | ⟨a, h⟩
  · exact .inl h
  · rcases withRegister_fault h with h | ⟨b, h⟩
    · exact .inr (.inl h)
    · exact .inr (.inr ⟨a, b, h⟩)

end Sys2Proof.Machine
end

