-- ==== Sys2Proof/Laws/Memory.lean ====
section
/-! SUPPORT. Memory: reading after a write, and the canonical form (rules R52, R53, R61). -/

namespace Sys2Proof.Machine

@[simp] theorem Memory.get_nil (a : Nat) : Memory.get [] a = 0#8 := rfl

theorem Memory.get_erase (m : Memory) (a b : Nat) :
    (m.erase a).get b = if b = a then 0#8 else m.get b := by
  induction m with
  | nil => simp [Memory.erase]
  | cons c m ih =>
    obtain ⟨k, v⟩ := c
    simp only [Memory.erase] at ih
    by_cases hk : k = a
    · subst hk
      simp only [Memory.erase, ne_eq, decide_not, List.filter_cons, decide_true, Bool.not_true,
        Bool.false_eq_true, ↓reduceIte, Memory.get] at ih ⊢
      by_cases hb : b = k
      · subst hb; simp [ih]
      · simp [ih, hb, Ne.symm hb]
    · simp only [Memory.erase, ne_eq, decide_not, List.filter_cons, hk, decide_false, Bool.not_false,
        ↓reduceIte, Memory.get] at ih ⊢
      by_cases hb : b = a
      · subst hb; simp [ih, hk]
      · simp [ih, hb]

theorem Memory.get_insertCell (m : Memory) (a b : Nat) (v : Byte) (h : ∀ c ∈ m, c.1 ≠ a) :
    (Memory.insertCell a v m).get b = if b = a then v else m.get b := by
  induction m with
  | nil =>
    by_cases hb : b = a
    · simp [Memory.insertCell, Memory.get, hb]
    · simp [Memory.insertCell, Memory.get, hb, Ne.symm hb]
  | cons c m ih =>
    obtain ⟨k, w⟩ := c
    have hk : k ≠ a := h (k, w) (by simp)
    have ih := ih fun c hc => h c (by simp [hc])
    simp only [Memory.insertCell]
    split
    · by_cases hb : b = a
      · simp [Memory.get, hb]
      · simp [Memory.get, hb, Ne.symm hb]
    · by_cases hb : b = a
      · subst hb; simp [Memory.get, ih, hk]
      · simp [Memory.get, ih, hb]

/-- A read after a write: the byte written at its address, what was there at any other (R53, R61). -/
theorem Memory.get_set (m : Memory) (a b : Nat) (v : Byte) :
    (m.set a v).get b = if b = a then v else m.get b := by
  unfold Memory.set
  split
  · rename_i h
    rw [Memory.get_erase, h]; rfl
  · rw [Memory.get_insertCell]
    · rw [Memory.get_erase]; split <;> rfl
    · intro c hc
      simpa [Memory.erase] using (List.mem_filter.mp hc).2

@[simp] theorem Memory.get_set_same (m : Memory) (a : Nat) (v : Byte) : (m.set a v).get a = v := by
  simp [Memory.get_set]

@[simp] theorem Memory.get_set_of_ne (m : Memory) {a b : Nat} (h : b ≠ a) (v : Byte) :
    (m.set a v).get b = m.get b := by
  simp [Memory.get_set, h]

theorem Memory.wf_nil : Memory.wf [] := by simp [Memory.wf]

theorem Memory.wf_erase {m : Memory} (h : m.wf) (a : Nat) : (m.erase a).wf :=
  ⟨h.1.filter _, fun c hc => h.2 c (List.mem_filter.mp hc).1⟩

theorem Memory.mem_insertCell {m : Memory} {a : Nat} {v : Byte} {c : Host.Cell} :
    c ∈ Memory.insertCell a v m ↔ c = (a, v) ∨ c ∈ m := by
  induction m with
  | nil => simp [Memory.insertCell]
  | cons d m ih =>
    simp only [Memory.insertCell]
    split
    · simp
    · simp only [List.mem_cons, ih]; tauto

theorem Memory.wf_insertCell {m : Memory} {a : Nat} {v : Byte} (h : m.wf) (ha : a < 256)
    (hv : v ≠ Config.unlistedByte) (hm : ∀ c ∈ m, c.1 ≠ a) : (Memory.insertCell a v m).wf := by
  refine ⟨?_, fun c hc => ?_⟩
  · induction m with
    | nil => simp [Memory.insertCell]
    | cons d m ih =>
      obtain ⟨k, w⟩ := d
      have hk : k ≠ a := hm (k, w) (by simp)
      obtain ⟨hd, ht⟩ := List.pairwise_cons.mp h.1
      simp only [Memory.insertCell]
      split
      · rename_i hlt
        refine List.pairwise_cons.mpr ⟨fun c hc => ?_, h.1⟩
        rcases List.mem_cons.mp hc with rfl | hc
        · exact hlt
        · exact Nat.lt_trans hlt (hd c hc)
      · refine List.pairwise_cons.mpr ⟨fun c hc => ?_, ?_⟩
        · rcases Memory.mem_insertCell.mp hc with rfl | hc
          · simp; omega
          · exact hd c hc
        · exact ih ⟨ht, fun c hc => h.2 c (by simp [hc])⟩ fun c hc => hm c (by simp [hc])
  · rcases Memory.mem_insertCell.mp hc with rfl | hc
    · exact ⟨ha, hv⟩
    · exact h.2 c hc

/-- Every write to an address that exists keeps the canonical form. -/
theorem Memory.wf_set {m : Memory} (h : m.wf) {a : Nat} (ha : a < 256) (v : Byte) : (m.set a v).wf := by
  unfold Memory.set
  split
  · exact Memory.wf_erase h a
  · refine Memory.wf_insertCell (Memory.wf_erase h a) ha ‹_› fun c hc => ?_
    simpa [Memory.erase] using (List.mem_filter.mp hc).2

/-- Writing a run of bytes keeps the canonical form. -/
theorem Memory.wf_setAll {m : Memory} (h : m.wf) (a : Nat) (vs : List Byte) : (Memory.setAll m a vs).wf := by
  induction vs generalizing m a with
  | nil => exact h
  | cons v vs ih =>
    refine ih ?_ (a + 1)
    split
    · exact Memory.wf_set h ‹_› v
    · exact h

/-- What a run of written bytes reads as. -/
theorem Memory.get_setAll (m : Memory) (a : Nat) (vs : List Byte) (b : Nat) :
    (Memory.setAll m a vs).get b =
      if a ≤ b ∧ b < a + vs.length ∧ b < 256 then vs.getD (b - a) 0#8 else m.get b := by
  induction vs generalizing m a with
  | nil =>
    have h : ¬ (a ≤ b ∧ b < a + ([] : List Byte).length ∧ b < 256) := by
      rw [List.length_nil]; omega
    rw [if_neg h, Memory.setAll]
  | cons v vs ih =>
    rw [Memory.setAll, ih]
    simp only [List.length_cons]
    by_cases h1 : b = a
    · subst h1
      have h2 : ¬ (b + 1 ≤ b ∧ b < b + 1 + vs.length ∧ b < 256) := by omega
      rw [if_neg h2]
      by_cases h3 : b < 256
      · have h4 : b ≤ b ∧ b < b + (vs.length + 1) ∧ b < 256 := by omega
        rw [if_pos h3, if_pos h4]; simp
      · have h4 : ¬ (b ≤ b ∧ b < b + (vs.length + 1) ∧ b < 256) := by omega
        rw [if_neg h3, if_neg h4]
    · have h5 : (if a < 256 then m.set a v else m).get b = m.get b := by
        split
        · simp [h1]
        · rfl
      rw [h5]
      by_cases h6 : a + 1 ≤ b ∧ b < a + 1 + vs.length ∧ b < 256
      · have h7 : a ≤ b ∧ b < a + (vs.length + 1) ∧ b < 256 := by omega
        rw [if_pos h6, if_pos h7]
        obtain ⟨d, hd⟩ : ∃ d, b - a = d + 1 := ⟨b - a - 1, by omega⟩
        have hd' : b - (a + 1) = d := by omega
        rw [hd, hd']; simp
      · have h7 : ¬ (a ≤ b ∧ b < a + (vs.length + 1) ∧ b < 256) := by omega
        rw [if_neg h6, if_neg h7]

end Sys2Proof.Machine
end

