-- ==== Sys2Proof/Laws/State.lean ====
section
/-! SUPPORT. One lemma for each field of the state under each update of Ops.lean. -/

namespace Sys2Proof.Machine

variable (s : State)

/-! ### setReg -/

theorem State.x_setReg (i : Reg) (v : Byte) : (s.setReg i v).x = s.x.set i.val v := rfl
@[simp] theorem State.pc_setReg (i : Reg) (v : Byte) : (s.setReg i v).pc = s.pc := rfl
@[simp] theorem State.fl_setReg (i : Reg) (v : Byte) : (s.setReg i v).fl = s.fl := rfl
@[simp] theorem State.ie_setReg (i : Reg) (v : Byte) : (s.setReg i v).ie = s.ie := rfl
@[simp] theorem State.elig_setReg (i : Reg) (v : Byte) : (s.setReg i v).elig = s.elig := rfl
@[simp] theorem State.tacc_setReg (i : Reg) (v : Byte) : (s.setReg i v).tacc = s.tacc := rfl
@[simp] theorem State.mem_setReg (i : Reg) (v : Byte) : (s.setReg i v).mem = s.mem := rfl
@[simp] theorem State.status_setReg (i : Reg) (v : Byte) : (s.setReg i v).status = s.status := rfl
@[simp] theorem State.out_setReg (i : Reg) (v : Byte) : (s.setReg i v).out = s.out := rfl
@[simp] theorem State.msg_setReg (i : Reg) (v : Byte) : (s.setReg i v).msg = s.msg := rfl
@[simp] theorem State.time_setReg (i : Reg) (v : Byte) : (s.setReg i v).time = s.time := rfl
@[simp] theorem State.params_setReg (i : Reg) (v : Byte) : (s.setReg i v).params = s.params := rfl

/-! ### storeByte -/

@[simp] theorem State.x_storeByte (a v : Byte) : (s.storeByte a v).x = s.x := rfl
@[simp] theorem State.pc_storeByte (a v : Byte) : (s.storeByte a v).pc = s.pc := rfl
@[simp] theorem State.fl_storeByte (a v : Byte) : (s.storeByte a v).fl = s.fl := rfl
@[simp] theorem State.ie_storeByte (a v : Byte) : (s.storeByte a v).ie = s.ie := rfl
@[simp] theorem State.elig_storeByte (a v : Byte) : (s.storeByte a v).elig = s.elig := rfl
@[simp] theorem State.tacc_storeByte (a v : Byte) : (s.storeByte a v).tacc = s.tacc := rfl
@[simp] theorem State.mem_storeByte (a v : Byte) : (s.storeByte a v).mem = s.mem.set a.toNat v := rfl
@[simp] theorem State.status_storeByte (a v : Byte) : (s.storeByte a v).status = s.status := rfl
@[simp] theorem State.out_storeByte (a v : Byte) : (s.storeByte a v).out = s.out := rfl
@[simp] theorem State.msg_storeByte (a v : Byte) : (s.storeByte a v).msg = s.msg := rfl
@[simp] theorem State.time_storeByte (a v : Byte) : (s.storeByte a v).time = s.time := rfl
@[simp] theorem State.params_storeByte (a v : Byte) : (s.storeByte a v).params = s.params := rfl
@[simp] theorem State.reg_storeByte (a v : Byte) (r : Reg) : (s.storeByte a v).reg r = s.reg r := rfl
@[simp] theorem State.sp_storeByte (a v : Byte) : (s.storeByte a v).sp = s.sp := rfl
@[simp] theorem State.im_storeByte (a v : Byte) : (s.storeByte a v).im = s.im := rfl
@[simp] theorem State.is_storeByte (a v : Byte) : (s.storeByte a v).is = s.is := rfl

/-! ### setFl -/

@[simp] theorem State.x_setFl (v : Byte) : (s.setFl v).x = s.x := rfl
@[simp] theorem State.pc_setFl (v : Byte) : (s.setFl v).pc = s.pc := rfl
@[simp] theorem State.fl_setFl (v : Byte) : (s.setFl v).fl = v := rfl
@[simp] theorem State.ie_setFl (v : Byte) : (s.setFl v).ie = s.ie := rfl
@[simp] theorem State.elig_setFl (v : Byte) : (s.setFl v).elig = s.elig := rfl
@[simp] theorem State.tacc_setFl (v : Byte) : (s.setFl v).tacc = s.tacc := rfl
@[simp] theorem State.mem_setFl (v : Byte) : (s.setFl v).mem = s.mem := rfl
@[simp] theorem State.status_setFl (v : Byte) : (s.setFl v).status = s.status := rfl
@[simp] theorem State.out_setFl (v : Byte) : (s.setFl v).out = s.out := rfl
@[simp] theorem State.msg_setFl (v : Byte) : (s.setFl v).msg = s.msg := rfl
@[simp] theorem State.time_setFl (v : Byte) : (s.setFl v).time = s.time := rfl
@[simp] theorem State.params_setFl (v : Byte) : (s.setFl v).params = s.params := rfl
@[simp] theorem State.reg_setFl (v : Byte) (r : Reg) : (s.setFl v).reg r = s.reg r := rfl
@[simp] theorem State.sp_setFl (v : Byte) : (s.setFl v).sp = s.sp := rfl
@[simp] theorem State.im_setFl (v : Byte) : (s.setFl v).im = s.im := rfl
@[simp] theorem State.is_setFl (v : Byte) : (s.setFl v).is = s.is := rfl

/-! ### jumpTo -/

@[simp] theorem State.x_jumpTo (v : Byte) : (s.jumpTo v).x = s.x := rfl
@[simp] theorem State.pc_jumpTo (v : Byte) : (s.jumpTo v).pc = v.toNat := rfl
@[simp] theorem State.fl_jumpTo (v : Byte) : (s.jumpTo v).fl = s.fl := rfl
@[simp] theorem State.ie_jumpTo (v : Byte) : (s.jumpTo v).ie = s.ie := rfl
@[simp] theorem State.elig_jumpTo (v : Byte) : (s.jumpTo v).elig = s.elig := rfl
@[simp] theorem State.tacc_jumpTo (v : Byte) : (s.jumpTo v).tacc = s.tacc := rfl
@[simp] theorem State.mem_jumpTo (v : Byte) : (s.jumpTo v).mem = s.mem := rfl
@[simp] theorem State.status_jumpTo (v : Byte) : (s.jumpTo v).status = s.status := rfl
@[simp] theorem State.out_jumpTo (v : Byte) : (s.jumpTo v).out = s.out := rfl
@[simp] theorem State.msg_jumpTo (v : Byte) : (s.jumpTo v).msg = s.msg := rfl
@[simp] theorem State.time_jumpTo (v : Byte) : (s.jumpTo v).time = s.time := rfl
@[simp] theorem State.params_jumpTo (v : Byte) : (s.jumpTo v).params = s.params := rfl
@[simp] theorem State.reg_jumpTo (v : Byte) (r : Reg) : (s.jumpTo v).reg r = s.reg r := rfl
@[simp] theorem State.sp_jumpTo (v : Byte) : (s.jumpTo v).sp = s.sp := rfl
@[simp] theorem State.im_jumpTo (v : Byte) : (s.jumpTo v).im = s.im := rfl
@[simp] theorem State.is_jumpTo (v : Byte) : (s.jumpTo v).is = s.is := rfl

/-! ### advance -/

/-- Under the constraints of R8 the width is that of the operand format (R76, R92). -/
theorem State.width_eq (h : s.params.wf) (m : Mnemonic) : s.width m = m.format.operandCount + 1 := by
  have hm : m ∈ Mnemonic.all := by cases m <;> decide
  rw [State.width, widthOf, h.2.2.2.2.2.2.1 m hm]

@[simp] theorem State.x_advance (w : Nat) : (s.advance w).x = s.x := rfl
@[simp] theorem State.pc_advance (w : Nat) : (s.advance w).pc = s.pc + w := rfl
@[simp] theorem State.fl_advance (w : Nat) : (s.advance w).fl = s.fl := rfl
@[simp] theorem State.ie_advance (w : Nat) : (s.advance w).ie = s.ie := rfl
@[simp] theorem State.elig_advance (w : Nat) : (s.advance w).elig = s.elig := rfl
@[simp] theorem State.tacc_advance (w : Nat) : (s.advance w).tacc = s.tacc := rfl
@[simp] theorem State.mem_advance (w : Nat) : (s.advance w).mem = s.mem := rfl
@[simp] theorem State.status_advance (w : Nat) : (s.advance w).status = s.status := rfl
@[simp] theorem State.out_advance (w : Nat) : (s.advance w).out = s.out := rfl
@[simp] theorem State.msg_advance (w : Nat) : (s.advance w).msg = s.msg := rfl
@[simp] theorem State.time_advance (w : Nat) : (s.advance w).time = s.time := rfl
@[simp] theorem State.params_advance (w : Nat) : (s.advance w).params = s.params := rfl
@[simp] theorem State.reg_advance (w : Nat) (r : Reg) : (s.advance w).reg r = s.reg r := rfl
@[simp] theorem State.sp_advance (w : Nat) : (s.advance w).sp = s.sp := rfl
@[simp] theorem State.im_advance (w : Nat) : (s.advance w).im = s.im := rfl
@[simp] theorem State.is_advance (w : Nat) : (s.advance w).is = s.is := rfl

/-! ### setIe -/

@[simp] theorem State.x_setIe (b : Bool) : (s.setIe b).x = s.x := rfl
@[simp] theorem State.pc_setIe (b : Bool) : (s.setIe b).pc = s.pc := rfl
@[simp] theorem State.fl_setIe (b : Bool) : (s.setIe b).fl = s.fl := rfl
@[simp] theorem State.ie_setIe (b : Bool) : (s.setIe b).ie = b := rfl
@[simp] theorem State.elig_setIe (b : Bool) : (s.setIe b).elig = s.elig := rfl
@[simp] theorem State.tacc_setIe (b : Bool) : (s.setIe b).tacc = s.tacc := rfl
@[simp] theorem State.mem_setIe (b : Bool) : (s.setIe b).mem = s.mem := rfl
@[simp] theorem State.status_setIe (b : Bool) : (s.setIe b).status = s.status := rfl
@[simp] theorem State.out_setIe (b : Bool) : (s.setIe b).out = s.out := rfl
@[simp] theorem State.msg_setIe (b : Bool) : (s.setIe b).msg = s.msg := rfl
@[simp] theorem State.time_setIe (b : Bool) : (s.setIe b).time = s.time := rfl
@[simp] theorem State.params_setIe (b : Bool) : (s.setIe b).params = s.params := rfl
@[simp] theorem State.reg_setIe (b : Bool) (r : Reg) : (s.setIe b).reg r = s.reg r := rfl
@[simp] theorem State.sp_setIe (b : Bool) : (s.setIe b).sp = s.sp := rfl
@[simp] theorem State.im_setIe (b : Bool) : (s.setIe b).im = s.im := rfl
@[simp] theorem State.is_setIe (b : Bool) : (s.setIe b).is = s.is := rfl

/-! ### setElig -/

@[simp] theorem State.x_setElig (b : Bool) : (s.setElig b).x = s.x := rfl
@[simp] theorem State.pc_setElig (b : Bool) : (s.setElig b).pc = s.pc := rfl
@[simp] theorem State.fl_setElig (b : Bool) : (s.setElig b).fl = s.fl := rfl
@[simp] theorem State.ie_setElig (b : Bool) : (s.setElig b).ie = s.ie := rfl
@[simp] theorem State.elig_setElig (b : Bool) : (s.setElig b).elig = b := rfl
@[simp] theorem State.tacc_setElig (b : Bool) : (s.setElig b).tacc = s.tacc := rfl
@[simp] theorem State.mem_setElig (b : Bool) : (s.setElig b).mem = s.mem := rfl
@[simp] theorem State.status_setElig (b : Bool) : (s.setElig b).status = s.status := rfl
@[simp] theorem State.out_setElig (b : Bool) : (s.setElig b).out = s.out := rfl
@[simp] theorem State.msg_setElig (b : Bool) : (s.setElig b).msg = s.msg := rfl
@[simp] theorem State.time_setElig (b : Bool) : (s.setElig b).time = s.time := rfl
@[simp] theorem State.params_setElig (b : Bool) : (s.setElig b).params = s.params := rfl
@[simp] theorem State.reg_setElig (b : Bool) (r : Reg) : (s.setElig b).reg r = s.reg r := rfl
@[simp] theorem State.sp_setElig (b : Bool) : (s.setElig b).sp = s.sp := rfl
@[simp] theorem State.im_setElig (b : Bool) : (s.setElig b).im = s.im := rfl
@[simp] theorem State.is_setElig (b : Bool) : (s.setElig b).is = s.is := rfl

/-! ### halt -/

@[simp] theorem State.x_halt : s.halt.x = s.x := rfl
@[simp] theorem State.pc_halt : s.halt.pc = s.pc := rfl
@[simp] theorem State.fl_halt : s.halt.fl = s.fl := rfl
@[simp] theorem State.ie_halt : s.halt.ie = s.ie := rfl
@[simp] theorem State.elig_halt : s.halt.elig = s.elig := rfl
@[simp] theorem State.tacc_halt : s.halt.tacc = s.tacc := rfl
@[simp] theorem State.mem_halt : s.halt.mem = s.mem := rfl
@[simp] theorem State.status_halt : s.halt.status = .halted := rfl
@[simp] theorem State.out_halt : s.halt.out = s.out := rfl
@[simp] theorem State.msg_halt : s.halt.msg = s.msg := rfl
@[simp] theorem State.time_halt : s.halt.time = s.time := rfl
@[simp] theorem State.params_halt : s.halt.params = s.params := rfl
@[simp] theorem State.reg_halt (r : Reg) : s.halt.reg r = s.reg r := rfl
@[simp] theorem State.sp_halt : s.halt.sp = s.sp := rfl
@[simp] theorem State.im_halt : s.halt.im = s.im := rfl
@[simp] theorem State.is_halt : s.halt.is = s.is := rfl

/-! ### report -/

@[simp] theorem State.x_report (m : Message) : (s.report m).x = s.x := rfl
@[simp] theorem State.pc_report (m : Message) : (s.report m).pc = s.pc := rfl
@[simp] theorem State.fl_report (m : Message) : (s.report m).fl = s.fl := rfl
@[simp] theorem State.ie_report (m : Message) : (s.report m).ie = s.ie := rfl
@[simp] theorem State.elig_report (m : Message) : (s.report m).elig = s.elig := rfl
@[simp] theorem State.tacc_report (m : Message) : (s.report m).tacc = s.tacc := rfl
@[simp] theorem State.mem_report (m : Message) : (s.report m).mem = s.mem := rfl
@[simp] theorem State.status_report (m : Message) : (s.report m).status = s.status := rfl
@[simp] theorem State.out_report (m : Message) : (s.report m).out = s.out := rfl
@[simp] theorem State.msg_report (m : Message) : (s.report m).msg = s.msg ++ [m] := rfl
@[simp] theorem State.time_report (m : Message) : (s.report m).time = s.time := rfl
@[simp] theorem State.params_report (m : Message) : (s.report m).params = s.params := rfl
@[simp] theorem State.reg_report (m : Message) (r : Reg) : (s.report m).reg r = s.reg r := rfl
@[simp] theorem State.sp_report (m : Message) : (s.report m).sp = s.sp := rfl
@[simp] theorem State.im_report (m : Message) : (s.report m).im = s.im := rfl
@[simp] theorem State.is_report (m : Message) : (s.report m).is = s.is := rfl

/-! ### emit -/

@[simp] theorem State.x_emit (cs : List Byte) : (s.emit cs).x = s.x := rfl
@[simp] theorem State.pc_emit (cs : List Byte) : (s.emit cs).pc = s.pc := rfl
@[simp] theorem State.fl_emit (cs : List Byte) : (s.emit cs).fl = s.fl := rfl
@[simp] theorem State.ie_emit (cs : List Byte) : (s.emit cs).ie = s.ie := rfl
@[simp] theorem State.elig_emit (cs : List Byte) : (s.emit cs).elig = s.elig := rfl
@[simp] theorem State.tacc_emit (cs : List Byte) : (s.emit cs).tacc = s.tacc := rfl
@[simp] theorem State.mem_emit (cs : List Byte) : (s.emit cs).mem = s.mem := rfl
@[simp] theorem State.status_emit (cs : List Byte) : (s.emit cs).status = s.status := rfl
@[simp] theorem State.out_emit (cs : List Byte) : (s.emit cs).out = s.out ++ cs := rfl
@[simp] theorem State.msg_emit (cs : List Byte) : (s.emit cs).msg = s.msg := rfl
@[simp] theorem State.time_emit (cs : List Byte) : (s.emit cs).time = s.time := rfl
@[simp] theorem State.params_emit (cs : List Byte) : (s.emit cs).params = s.params := rfl
@[simp] theorem State.reg_emit (cs : List Byte) (r : Reg) : (s.emit cs).reg r = s.reg r := rfl
@[simp] theorem State.sp_emit (cs : List Byte) : (s.emit cs).sp = s.sp := rfl
@[simp] theorem State.im_emit (cs : List Byte) : (s.emit cs).im = s.im := rfl
@[simp] theorem State.is_emit (cs : List Byte) : (s.emit cs).is = s.is := rfl

/-! ### Reading a register after a write -/

theorem State.reg_setReg (i j : Reg) (v : Byte) : (s.setReg i v).reg j = if j = i then v else s.reg j := by
  by_cases h : j = i
  · subst h; simp [State.reg, State.setReg]
  · have h' : i.val ≠ j.val := fun e => h (Fin.ext e.symm)
    simp [State.reg, State.setReg, Vector.getElem_set_ne, h, h']

@[simp] theorem State.reg_setReg_same (i : Reg) (v : Byte) : (s.setReg i v).reg i = v := by
  simp [State.reg_setReg]

@[simp] theorem State.reg_setReg_of_ne {i j : Reg} (h : j ≠ i) (v : Byte) : (s.setReg i v).reg j = s.reg j := by
  simp [State.reg_setReg, h]

@[simp] theorem State.sp_setReg_spReg (v : Byte) : (s.setReg s.params.spReg v).sp = v := by
  simp [State.sp]

@[simp] theorem State.is_setReg_isReg (v : Byte) : (s.setReg s.params.isReg v).is = v := by
  simp [State.is]

/-- The register file is determined by its reads. -/
theorem State.x_ext {s t : State} (h : ∀ r, s.reg r = t.reg r) : s.x = t.x := by
  apply Vector.ext
  intro k hk
  exact h ⟨k, hk⟩

end Sys2Proof.Machine
end

