-- ==== Sys2Proof/Laws/Stack.lean ====
section
/-! SUPPORT. What the stack primitives can do (rules R100 to R104), and the interrupt entry and return over them. -/

namespace Sys2Proof.Machine

variable (s : State)

/-! ### Push -/

/-- A push of a byte value is the push of the byte; a push of 256 or more is the one fault of `Push` (R53, R100). -/
theorem State.push_eq (v : Nat) :
    s.push v = if v < 256 then .ok (s.pushByte (BitVec.ofNat 8 v)) else .error (.pcNotStorable v) := by
  have h : (s.setReg s.params.spReg (s.sp - 1)).sp.toNat < 256 := BitVec.isLt _
  simp only [State.push, State.memWrite, h, ↓reduceIte]
  split <;> rfl

/-- The whole state after a push (R100). -/
theorem State.pushByte_eq (v : Byte) :
    s.pushByte v = (s.setReg s.params.spReg (s.sp - 1)).storeByte (s.sp - 1) v := by
  simp [State.pushByte]

@[simp] theorem State.sp_pushByte (v : Byte) : (s.pushByte v).sp = s.sp - 1 := by
  simp [State.pushByte_eq]

@[simp] theorem State.mem_pushByte (v : Byte) : (s.pushByte v).mem = s.mem.set (s.sp - 1).toNat v := by
  simp [State.pushByte_eq]

theorem State.reg_pushByte (v : Byte) (r : Reg) :
    (s.pushByte v).reg r = if r = s.params.spReg then s.sp - 1 else s.reg r := by
  simp [State.pushByte_eq, State.reg_setReg]

@[simp] theorem State.pc_pushByte (v : Byte) : (s.pushByte v).pc = s.pc := rfl
@[simp] theorem State.fl_pushByte (v : Byte) : (s.pushByte v).fl = s.fl := rfl
@[simp] theorem State.ie_pushByte (v : Byte) : (s.pushByte v).ie = s.ie := rfl
@[simp] theorem State.elig_pushByte (v : Byte) : (s.pushByte v).elig = s.elig := rfl
@[simp] theorem State.tacc_pushByte (v : Byte) : (s.pushByte v).tacc = s.tacc := rfl
@[simp] theorem State.status_pushByte (v : Byte) : (s.pushByte v).status = s.status := rfl
@[simp] theorem State.out_pushByte (v : Byte) : (s.pushByte v).out = s.out := rfl
@[simp] theorem State.msg_pushByte (v : Byte) : (s.pushByte v).msg = s.msg := rfl
@[simp] theorem State.time_pushByte (v : Byte) : (s.pushByte v).time = s.time := rfl
@[simp] theorem State.params_pushByte (v : Byte) : (s.pushByte v).params = s.params := rfl

/-! ### Pop -/

@[simp] theorem State.pop_fst : s.pop.1 = s.mem.get s.sp.toNat := rfl

theorem State.pop_snd : s.pop.2 = s.setReg s.params.spReg (s.sp + 1) := rfl

@[simp] theorem State.sp_pop : s.pop.2.sp = s.sp + 1 := by simp [State.pop_snd]

theorem State.reg_pop (r : Reg) : s.pop.2.reg r = if r = s.params.spReg then s.sp + 1 else s.reg r := by
  simp [State.pop_snd, State.reg_setReg]

@[simp] theorem State.pc_pop : s.pop.2.pc = s.pc := rfl
@[simp] theorem State.fl_pop : s.pop.2.fl = s.fl := rfl
@[simp] theorem State.ie_pop : s.pop.2.ie = s.ie := rfl
@[simp] theorem State.elig_pop : s.pop.2.elig = s.elig := rfl
@[simp] theorem State.tacc_pop : s.pop.2.tacc = s.tacc := rfl
@[simp] theorem State.mem_pop : s.pop.2.mem = s.mem := rfl
@[simp] theorem State.status_pop : s.pop.2.status = s.status := rfl
@[simp] theorem State.out_pop : s.pop.2.out = s.out := rfl
@[simp] theorem State.msg_pop : s.pop.2.msg = s.msg := rfl
@[simp] theorem State.time_pop : s.pop.2.time = s.time := rfl
@[simp] theorem State.params_pop : s.pop.2.params = s.params := rfl

/-! ### Saving and restoring the registers -/

/-- Everything that `s` and `t` hold but registers and memory is the same. -/
structure State.SameOutside (s t : State) : Prop where
  pc : t.pc = s.pc
  fl : t.fl = s.fl
  ie : t.ie = s.ie
  elig : t.elig = s.elig
  tacc : t.tacc = s.tacc
  status : t.status = s.status
  out : t.out = s.out
  msg : t.msg = s.msg
  time : t.time = s.time
  params : t.params = s.params

theorem State.SameOutside.refl : State.SameOutside s s := ⟨rfl, rfl, rfl, rfl, rfl, rfl, rfl, rfl, rfl, rfl⟩

theorem State.SameOutside.trans {s t u : State} (h : State.SameOutside s t) (k : State.SameOutside t u) :
    State.SameOutside s u :=
  ⟨k.pc.trans h.pc, k.fl.trans h.fl, k.ie.trans h.ie, k.elig.trans h.elig, k.tacc.trans h.tacc,
    k.status.trans h.status, k.out.trans h.out, k.msg.trans h.msg, k.time.trans h.time,
    k.params.trans h.params⟩

theorem State.sameOutside_pushByte (v : Byte) : State.SameOutside s (s.pushByte v) :=
  ⟨rfl, rfl, rfl, rfl, rfl, rfl, rfl, rfl, rfl, rfl⟩

/-- What pushing a list of registers leaves outside registers and memory. -/
theorem State.sameOutside_pushAll (ks : List Reg) :
    State.SameOutside s (ks.foldl (fun t k => t.pushByte (t.reg k)) s) := by
  induction ks generalizing s with
  | nil => exact .refl s
  | cons k ks ih => exact (s.sameOutside_pushByte (s.reg k)).trans (ih _)

theorem State.sameOutside_saveRegisters : State.SameOutside s s.saveRegisters := s.sameOutside_pushAll _

/-- What popping into a list of registers leaves: registers are all that change. -/
theorem State.restoreAll_frame (ks : List Reg) :
    State.SameOutside s (ks.foldl (fun t k => t.pop.2.setReg k t.pop.1) s) ∧
      (ks.foldl (fun t k => t.pop.2.setReg k t.pop.1) s).mem = s.mem := by
  induction ks generalizing s with
  | nil => exact ⟨.refl s, rfl⟩
  | cons k ks ih =>
    have h : State.SameOutside s (s.pop.2.setReg k s.pop.1) := ⟨rfl, rfl, rfl, rfl, rfl, rfl, rfl, rfl, rfl, rfl⟩
    exact ⟨h.trans (ih _).1, (ih _).2⟩

theorem State.sameOutside_restoreRegisters : State.SameOutside s s.restoreRegisters := (s.restoreAll_frame _).1

@[simp] theorem State.mem_restoreRegisters : s.restoreRegisters.mem = s.mem := (s.restoreAll_frame _).2

/-- Pushing a list of registers keeps the canonical form of memory. -/
theorem State.wf_pushAll (ks : List Reg) (h : s.mem.wf) :
    (ks.foldl (fun t k => t.pushByte (t.reg k)) s).mem.wf := by
  induction ks generalizing s with
  | nil => exact h
  | cons k ks ih => exact ih _ (by rw [State.mem_pushByte]; exact Memory.wf_set h (BitVec.isLt _) _)

/-- What pushing a list of registers leaves of SP, and of the registers that are not SP. -/
theorem State.reg_pushAll (ks : List Reg) (r : Reg) :
    (ks.foldl (fun t k => t.pushByte (t.reg k)) s).reg r =
      if r = s.params.spReg then s.sp - BitVec.ofNat 8 ks.length else s.reg r := by
  induction ks generalizing s with
  | nil => by_cases h : r = s.params.spReg <;> simp [h, State.sp]
  | cons k ks ih =>
    rw [List.foldl_cons, ih]
    by_cases h : r = s.params.spReg
    · simp only [State.params_pushByte, h, ↓reduceIte, State.sp_pushByte, List.length_cons, BitVec.ofNat_add]
      bv_omega
    · simp [h, State.reg_pushByte]

/-- Below SP, one address further down. -/
theorem sub_ofNat_succ (a : Byte) (j : Nat) : a - 1 - BitVec.ofNat 8 j = a - BitVec.ofNat 8 (j + 1) := by
  rw [BitVec.ofNat_add]
  bv_omega

/-- The ten bytes of the frame of an interrupt entry (R236). -/
theorem sub_ten (a : Byte) : a - 1 - 1 - 8#8 = a - 10#8 := by
  bv_omega

/-- The frame of R236 in the terms of its pushes: the registers, -/
theorem sub_three_sub (a : Byte) (k : Nat) : a - 3#8 - BitVec.ofNat 8 k = a - 1 - 1 - BitVec.ofNat 8 (k + 1) := by
  have h : (3#8) = 1 + 1 + 1 := rfl
  have h1 : BitVec.ofNat 8 1 = 1 := rfl
  rw [BitVec.ofNat_add, h, h1]
  ring

/-- the stack pointer as it is saved, -/
theorem sub_two_sub (a : Byte) (k : Nat) : a - 2#8 - BitVec.ofNat 8 k = a - 1 - 1 - BitVec.ofNat 8 k := by
  have h : (2#8) = 1 + 1 := rfl
  rw [h]
  ring

/-- and any byte of it, from S. -/
theorem sub_sub_ofNat (a : Byte) (j : Nat) : a - 1 - 1 - BitVec.ofNat 8 j = a - BitVec.ofNat 8 (j + 2) := by
  have h : (2#8) = 1 + 1 := rfl
  rw [BitVec.ofNat_add, h]
  ring

/-- Fewer than 256 addresses in a row are distinct. -/
theorem sub_ofNat_ne {a : Byte} {j : Nat} (h : j + 1 < 256) : a ≠ a - BitVec.ofNat 8 (j + 1) := by
  intro e
  have he := congrArg BitVec.toNat e
  rw [BitVec.toNat_sub, BitVec.toNat_ofNat] at he
  have ha := a.isLt
  omega

/-- A byte that no push of the list reaches reads as before. -/
theorem State.get_pushAll_of_ne (ks : List Reg) (a : Byte)
    (h : ∀ j, j < ks.length → a ≠ s.sp - BitVec.ofNat 8 (j + 1)) :
    (ks.foldl (fun t k => t.pushByte (t.reg k)) s).mem.get a.toNat = s.mem.get a.toNat := by
  induction ks generalizing s with
  | nil => rfl
  | cons k ks ih =>
    rw [List.foldl_cons, ih, State.mem_pushByte, Memory.get_set_of_ne]
    · intro e
      exact h 0 (Nat.zero_lt_succ _) (BitVec.toNat_inj.mp e)
    · intro j hj
      rw [State.sp_pushByte, sub_ofNat_succ]
      exact h (j + 1) (Nat.succ_lt_succ hj)

/-- What the pushes of a list of registers store: the registers, and for SP its value before its own push. -/
theorem State.get_pushAll (ks : List Reg) (hl : ks.length ≤ 256) (j : Nat) (hj : j < ks.length) :
    (ks.foldl (fun t k => t.pushByte (t.reg k)) s).mem.get (s.sp - BitVec.ofNat 8 (j + 1)).toNat =
      if ks[j] = s.params.spReg then s.sp - BitVec.ofNat 8 j else s.reg ks[j] := by
  induction ks generalizing s j with
  | nil => exact absurd hj (Nat.not_lt_zero _)
  | cons k ks ih =>
    rw [List.length_cons] at hl hj
    rw [List.foldl_cons]
    cases j with
    | zero =>
      have h1 : s.sp - BitVec.ofNat 8 (0 + 1) = s.sp - 1 := rfl
      rw [h1, State.get_pushAll_of_ne, State.mem_pushByte, Memory.get_set_same, List.getElem_cons_zero]
      · split
        · rename_i e
          rw [e, BitVec.sub_zero]; rfl
        · rfl
      · intro i hi
        rw [State.sp_pushByte]
        exact sub_ofNat_ne (by omega)
    | succ j =>
      have hi := ih (s.pushByte (s.reg k)) (by omega) j (by omega)
      rw [State.sp_pushByte, sub_ofNat_succ, sub_ofNat_succ] at hi
      rw [hi, State.params_pushByte, List.getElem_cons_succ]
      split
      · rfl
      · rename_i hne
        rw [State.reg_pushByte, if_neg hne]

theorem getElem_allRegisters (k : Reg) (h : k.val < allRegisters.length) : allRegisters[k.val] = k := by
  revert h; revert k; decide

/-- The registers after all eight are saved: SP is eight lower. -/
theorem State.reg_saveRegisters (r : Reg) :
    s.saveRegisters.reg r = if r = s.params.spReg then s.sp - 8#8 else s.reg r :=
  s.reg_pushAll allRegisters r

/-- Where each register is saved (R235): SP as it was before its own push. -/
theorem State.get_saveRegisters (k : Reg) :
    s.saveRegisters.mem.get (s.sp - BitVec.ofNat 8 (k.val + 1)).toNat =
      if k = s.params.spReg then s.sp - BitVec.ofNat 8 k.val else s.reg k := by
  have hk : k.val < allRegisters.length := k.isLt
  have h := s.get_pushAll allRegisters (by decide) k.val hk
  rw [getElem_allRegisters] at h
  rw [State.saveRegisters, h]

/-- Saving the registers writes no byte but the eight below SP. -/
theorem State.get_saveRegisters_of_ne (a : Byte) (h : ∀ j, 1 ≤ j → j ≤ 8 → a ≠ s.sp - BitVec.ofNat 8 j) :
    s.saveRegisters.mem.get a.toNat = s.mem.get a.toNat := by
  rw [State.saveRegisters]
  exact s.get_pushAll_of_ne _ a fun j hj => h (j + 1) (Nat.succ_pos j) hj

/-! ### Interrupt entry -/

/-- Saving the context faults exactly when the program counter does not fit a byte (R224, R235). -/
theorem State.saveContext_eq :
    s.saveContext = if s.pc < 256 then .ok ((s.pushByte (BitVec.ofNat 8 s.pc)).pushByte s.fl).saveRegisters
      else .error (.pcNotStorable s.pc) := by
  rw [State.saveContext, State.push_eq]
  by_cases h : s.pc < 256
  · rw [if_pos h, if_pos h]; rfl
  · rw [if_neg h, if_neg h]

/-- Going to a handler faults exactly when the vector slot is outside memory (R237, R52). -/
theorem State.vectorTo_eq (i : Line) :
    s.vectorTo i = if s.params.vtBase.toNat + i.val < 256 then
        .ok (s.jumpTo (s.mem.get (s.params.vtBase.toNat + i.val)))
      else .error (.addressOutOfRange (s.params.vtBase.toNat + i.val)) := by
  unfold State.vectorTo State.memRead
  split_ifs <;> rfl

/-- The state of an interrupt entry before it goes to the handler (R235). -/
def State.entered (s : State) (i : Line) : State :=
  (((s.acknowledge i).pushByte (BitVec.ofNat 8 s.pc)).pushByte s.fl).saveRegisters

@[simp] theorem State.params_entered (i : Line) : (s.entered i).params = s.params :=
  (State.sameOutside_saveRegisters _).params

theorem State.sameOutside_entered (i : Line) : State.SameOutside (s.acknowledge i) (s.entered i) :=
  ((State.sameOutside_pushByte _ _).trans (State.sameOutside_pushByte _ _)).trans (State.sameOutside_saveRegisters _)

@[simp] theorem State.ie_entered (i : Line) : (s.entered i).ie = false := (s.sameOutside_entered i).ie
@[simp] theorem State.fl_entered (i : Line) : (s.entered i).fl = s.fl := (s.sameOutside_entered i).fl
@[simp] theorem State.elig_entered (i : Line) : (s.entered i).elig = s.elig := (s.sameOutside_entered i).elig
@[simp] theorem State.tacc_entered (i : Line) : (s.entered i).tacc = s.tacc := (s.sameOutside_entered i).tacc
@[simp] theorem State.status_entered (i : Line) : (s.entered i).status = s.status := (s.sameOutside_entered i).status
@[simp] theorem State.out_entered (i : Line) : (s.entered i).out = s.out := (s.sameOutside_entered i).out
@[simp] theorem State.msg_entered (i : Line) : (s.entered i).msg = s.msg := (s.sameOutside_entered i).msg
@[simp] theorem State.time_entered (i : Line) : (s.entered i).time = s.time :=
  (s.sameOutside_entered i).time

theorem State.wf_entered (i : Line) (h : s.mem.wf) : (s.entered i).mem.wf :=
  State.wf_pushAll _ _ (by
    rw [State.mem_pushByte]
    refine Memory.wf_set ?_ (BitVec.isLt _) _
    rw [State.mem_pushByte]
    exact Memory.wf_set h (BitVec.isLt _) _)

/-- The registers after an entry: SP ten lower, IS without the line, the rest as they were (R235, R236). -/
theorem State.reg_entered (i : Line) (h : s.params.spReg ≠ s.params.isReg) (r : Reg) :
    (s.entered i).reg r = if r = s.params.spReg then s.sp - 10#8
      else if r = s.params.isReg then s.is &&& ~~~ lineBit i else s.reg r := by
  have hsp : (s.acknowledge i).sp = s.sp := State.reg_setReg_of_ne _ h _
  rw [State.entered, State.reg_saveRegisters]
  simp only [State.params_pushByte, State.sp_pushByte, State.reg_pushByte, hsp]
  by_cases h1 : r = s.params.spReg
  · have h1' : r = (s.acknowledge i).params.spReg := h1
    rw [if_pos h1', if_pos h1]
    exact sub_ten s.sp
  · have h1' : ¬ r = (s.acknowledge i).params.spReg := h1
    rw [if_neg h1', if_neg h1', if_neg h1', if_neg h1]
    exact State.reg_setReg _ _ _ _

theorem State.reg_acknowledge (i : Line) (r : Reg) :
    (s.acknowledge i).reg r = if r = s.params.isReg then s.is &&& ~~~ lineBit i else s.reg r :=
  State.reg_setReg _ _ _ _

/-- The registers in the frame of an interrupt entry (R236): `x[k]` at S - 3 - k, with SP as it was before its own
push. -/
theorem State.get_entered (i : Line) (h : s.params.spReg ≠ s.params.isReg) (k : Reg) :
    (s.entered i).mem.get (s.sp - 3#8 - BitVec.ofNat 8 k.val).toNat =
      if k = s.params.spReg then s.sp - 2#8 - BitVec.ofNat 8 k.val else (s.entered i).reg k := by
  have hsp : (s.acknowledge i).sp = s.sp := State.reg_setReg_of_ne _ h _
  have hp : (s.acknowledge i).params = s.params := rfl
  have h1 := State.get_saveRegisters (((s.acknowledge i).pushByte (BitVec.ofNat 8 s.pc)).pushByte s.fl) k
  simp only [State.sp_pushByte, hsp, State.params_pushByte, State.reg_pushByte, hp, State.reg_acknowledge] at h1
  rw [State.reg_entered _ _ h, sub_three_sub, sub_two_sub, State.entered, h1]
  split <;> rfl

/-- The rest of memory after an interrupt entry: `pc` at S - 1, FL at S - 2, nothing else (R236). -/
theorem State.get_entered_of_ne (i : Line) (h : s.params.spReg ≠ s.params.isReg) (a : Byte)
    (ha : ∀ j, 3 ≤ j → j ≤ 10 → a ≠ s.sp - BitVec.ofNat 8 j) :
    (s.entered i).mem.get a.toNat =
      ((s.mem.set (s.sp - 1).toNat (BitVec.ofNat 8 s.pc)).set (s.sp - 1 - 1).toNat s.fl).get a.toNat := by
  have hsp : (s.acknowledge i).sp = s.sp := State.reg_setReg_of_ne _ h _
  have hm : (s.acknowledge i).mem = s.mem := rfl
  rw [State.entered, State.get_saveRegisters_of_ne]
  · simp only [State.mem_pushByte, State.sp_pushByte, hsp, hm]
  · intro j h1 hj
    rw [State.sp_pushByte, State.sp_pushByte, hsp, sub_sub_ofNat]
    exact ha (j + 2) (by omega) (by omega)
/-- Everything an interrupt entry can do (R235): it faults on a program counter of 256 or more, or on a vector
slot outside memory; otherwise it is the pushes, then the jump to the handler. -/
theorem State.enterInterrupt_eq (i : Line) :
    s.enterInterrupt i =
      if s.pc < 256 then
        if s.params.vtBase.toNat + i.val < 256 then
          .ok ((s.entered i).jumpTo ((s.entered i).mem.get (s.params.vtBase.toNat + i.val)))
        else .error (.addressOutOfRange (s.params.vtBase.toNat + i.val))
      else .error (.pcNotStorable s.pc) := by
  have hpc : (s.acknowledge i).pc = s.pc := rfl
  have hfl : (s.acknowledge i).fl = s.fl := rfl
  rw [State.enterInterrupt, State.saveContext_eq, hpc, hfl]
  split_ifs with _ h2
  · show State.vectorTo (s.entered i) i = _
    rw [State.vectorTo_eq, State.params_entered, if_pos h2]
  · show State.vectorTo (s.entered i) i = _
    rw [State.vectorTo_eq, State.params_entered, if_neg h2]
  · rfl

/-- What an interrupt entry that does not fault leads to. -/
theorem State.enterInterrupt_ok {s t : State} {i : Line} (h : s.enterInterrupt i = .ok t) :
    s.pc < 256 ∧ s.params.vtBase.toNat + i.val < 256 ∧
      t = (s.entered i).jumpTo ((s.entered i).mem.get (s.params.vtBase.toNat + i.val)) := by
  rw [State.enterInterrupt_eq] at h
  split_ifs at h with h1 h2
  exact ⟨h1, h2, (Except.ok.inj h).symm⟩

/-! ### Return from an interrupt -/

/-- Popping into a list of registers that does not hold SP, from the list's first register on. -/
theorem State.restoreAll_spec (ks : List Reg) (hn : ks.Nodup) (hsp : s.params.spReg ∉ ks) :
    (ks.foldl (fun t k => t.pop.2.setReg k t.pop.1) s).sp = s.sp + BitVec.ofNat 8 ks.length ∧
    (∀ j (hj : j < ks.length), (ks.foldl (fun t k => t.pop.2.setReg k t.pop.1) s).reg ks[j] =
      s.mem.get (s.sp + BitVec.ofNat 8 j).toNat) ∧
    ∀ r, r ∉ ks → r ≠ s.params.spReg → (ks.foldl (fun t k => t.pop.2.setReg k t.pop.1) s).reg r = s.reg r := by
  induction ks generalizing s with
  | nil => exact ⟨by simp, fun j hj => absurd hj (Nat.not_lt_zero _), fun _ _ _ => rfl⟩
  | cons k ks ih =>
    obtain ⟨hk, hn⟩ := List.nodup_cons.mp hn
    obtain ⟨hne, hsp⟩ := not_or.mp (mt List.mem_cons.mpr hsp)
    have hsp' : (s.pop.2.setReg k s.pop.1).sp = s.sp + 1 := by
      show (s.pop.2.setReg k s.pop.1).reg s.params.spReg = _
      rw [State.reg_setReg, if_neg hne, State.reg_pop, if_pos rfl]
    obtain ⟨h1, h2, h3⟩ := ih (s.pop.2.setReg k s.pop.1) hn hsp
    rw [List.foldl_cons]
    refine ⟨?_, fun j hj => ?_, fun r hr hrsp => ?_⟩
    · rw [h1, hsp', List.length_cons, BitVec.ofNat_add]
      bv_omega
    · cases j with
      | zero =>
        rw [List.getElem_cons_zero, h3 k hk (Ne.symm hne), State.reg_setReg_same, State.pop_fst, BitVec.add_zero]
      | succ j =>
        rw [List.length_cons] at hj
        rw [List.getElem_cons_succ, h2 j (by omega), hsp', BitVec.ofNat_add]
        show s.mem.get _ = _
        congr 2
        bv_omega
    · obtain ⟨hrk, hrks⟩ := not_or.mp (mt List.mem_cons.mpr hr)
      rw [h3 r hrks hrsp, State.reg_setReg, if_neg hrk, State.reg_pop, if_neg hrsp]

/-- The registers above and below one, in the order in which they are restored. -/
theorem restore_order (j : Reg) : ∃ hi lo : List Reg, allRegisters.reverse = hi ++ j :: lo ∧
    hi.Nodup ∧ j ∉ hi ∧ lo.Nodup ∧ j ∉ lo ∧ hi.length = 7 - j.val ∧ lo.length = j.val ∧
    (∀ k : Reg, j < k → k ∉ lo ∧ hi[7 - k.val]? = some k) ∧
    (∀ k : Reg, k < j → lo[j.val - 1 - k.val]? = some k) := by
  refine ⟨allRegisters.reverse.take (7 - j.val), allRegisters.reverse.drop (8 - j.val), ?_⟩
  revert j
  decide

/-- What restoring the registers gives (R201): those above SP_REG from the stack, SP the byte popped into it,
then those below from there on. -/
theorem State.restoreRegisters_spec (j : Reg) (hj : j = s.params.spReg) (v : Byte)
    (hv : v = s.mem.get (s.sp + BitVec.ofNat 8 (7 - j.val)).toNat) :
    s.restoreRegisters.sp = v + BitVec.ofNat 8 j.val ∧
    (∀ k : Reg, j < k → s.restoreRegisters.reg k = s.mem.get (s.sp + BitVec.ofNat 8 (7 - k.val)).toNat) ∧
    ∀ k : Reg, k < j → s.restoreRegisters.reg k = s.mem.get (v + BitVec.ofNat 8 (j.val - 1 - k.val)).toNat := by
  obtain ⟨hi, lo, hord, hin, hjhi, hln, hjlo, hil, hll, habove, hbelow⟩ := restore_order j
  rw [State.restoreRegisters, hord, List.foldl_append, List.foldl_cons]
  obtain ⟨a1, a2, -⟩ := s.restoreAll_spec hi hin (hj ▸ hjhi)
  have aframe := s.restoreAll_frame hi
  generalize hu : hi.foldl (fun t k => t.pop.2.setReg k t.pop.1) s = u at *
  have hup : u.params = s.params := aframe.1.params
  have hjp : j = u.params.spReg := by rw [hup, hj]
  have hwsp : (u.pop.2.setReg j u.pop.1).sp = v := by
    show (u.pop.2.setReg j u.pop.1).reg u.params.spReg = _
    rw [← hjp, State.reg_setReg_same, State.pop_fst, aframe.2, a1, hil, hv]
  have hwr : ∀ k, k ≠ j → (u.pop.2.setReg j u.pop.1).reg k = u.reg k := fun k hk => by
    rw [State.reg_setReg, if_neg hk, State.reg_pop, if_neg (hjp ▸ hk)]
  have hwm : (u.pop.2.setReg j u.pop.1).mem = s.mem := aframe.2
  have hwp : (u.pop.2.setReg j u.pop.1).params = s.params := hup
  generalize u.pop.2.setReg j u.pop.1 = w at *
  obtain ⟨b1, b2, b3⟩ := w.restoreAll_spec lo hln (by rw [hwp, ← hj]; exact hjlo)
  refine ⟨by rw [b1, hwsp, hll], fun k hk => ?_, fun k hk => ?_⟩
  · obtain ⟨hklo, hkhi⟩ := habove k hk
    obtain ⟨hlt, he⟩ := List.getElem?_eq_some_iff.mp hkhi
    have hne : k ≠ j := fun e => absurd hk (e ▸ lt_irrefl _)
    rw [b3 k hklo (by rw [hwp, ← hj]; exact hne), hwr k hne]
    have := a2 (7 - k.val) hlt
    rwa [he] at this
  · obtain ⟨hlt, he⟩ := List.getElem?_eq_some_iff.mp (hbelow k hk)
    have := b2 (j.val - 1 - k.val) hlt
    rwa [he, hwm, hwsp] at this

/-- The registers after a return from an interrupt: as restored, with SP two higher, past FL and `pc` (R201). -/
theorem State.reg_returnFromInterrupt (r : Reg) :
    s.returnFromInterrupt.reg r =
      if r = s.params.spReg then s.restoreRegisters.sp + 2#8 else s.restoreRegisters.reg r := by
  have hp : s.restoreRegisters.params.spReg = s.params.spReg :=
    congrArg Params.spReg s.sameOutside_restoreRegisters.params
  rw [State.returnFromInterrupt, State.reg_setIe, State.reg_jumpTo, State.reg_pop, State.params_setFl,
    State.params_pop, hp, State.sp_setFl, State.sp_pop, State.reg_setFl, State.reg_pop, hp]
  split
  · bv_omega
  · rfl

/-- What a return from an interrupt leaves outside registers, FL, `pc` and IE (R201). -/
theorem State.returnFromInterrupt_frame :
    s.returnFromInterrupt.ie = true ∧ s.returnFromInterrupt.mem = s.mem ∧
    s.returnFromInterrupt.elig = s.elig ∧ s.returnFromInterrupt.tacc = s.tacc ∧
    s.returnFromInterrupt.time = s.time ∧ s.returnFromInterrupt.params = s.params ∧
    s.returnFromInterrupt.status = s.status ∧ s.returnFromInterrupt.out = s.out ∧
    s.returnFromInterrupt.msg = s.msg ∧ s.returnFromInterrupt.pc < 256 := by
  have h := s.sameOutside_restoreRegisters
  have hv := BitVec.isLt (s.restoreRegisters.pop.2.setFl s.restoreRegisters.pop.1).pop.1
  simp only [Nat.reducePow] at hv
  simp only [State.returnFromInterrupt, State.ie_setIe, State.mem_setIe, State.elig_setIe, State.tacc_setIe,
    State.time_setIe, State.params_setIe, State.status_setIe, State.out_setIe, State.msg_setIe, State.pc_setIe,
    State.mem_jumpTo, State.elig_jumpTo, State.tacc_jumpTo, State.time_jumpTo, State.params_jumpTo,
    State.status_jumpTo, State.out_jumpTo, State.msg_jumpTo, State.pc_jumpTo, State.mem_pop, State.elig_pop,
    State.tacc_pop, State.time_pop, State.params_pop, State.status_pop, State.out_pop, State.msg_pop,
    State.mem_setFl, State.elig_setFl, State.tacc_setFl, State.time_setFl, State.params_setFl,
    State.status_setFl, State.out_setFl, State.msg_setFl, State.mem_restoreRegisters, h.elig, h.tacc, h.time,
    h.params, h.status, h.out, h.msg, hv, and_self]

end Sys2Proof.Machine
end

