-- ==== Sys2Proof/Laws/Exec.lean ====
section
/-! SUPPORT. What each instruction can do: if `exec` answers a next state, it is this one. One lemma for each
meaning that is not the same for every operand; the shared shapes of the ALU and of the jumps have one each. -/

namespace Sys2Proof.Machine

variable {rA rB imm : Byte} {s t : State}

/-- The two-operand ALU instructions but DIV, MOD and CMP. -/
theorem aluBinary_next {m : Mnemonic} {f : Byte → Byte → Byte} (h : aluBinary m f rA rB s = .next t) :
    ∃ a b : Reg, a.val = rA.toNat ∧ b.val = rB.toNat ∧
      t = (s.setReg a (f (s.reg a) (s.reg b))).advance (s.width m) := by
  obtain ⟨a, b, ha, hb, h⟩ := withRegisters_next h
  injection h with h
  exact ⟨a, b, ha, hb, h.symm⟩

/-- The one-operand ALU instructions. -/
theorem aluUnary_next {m : Mnemonic} {f : Byte → Byte} (h : aluUnary m f rA s = .next t) :
    ∃ a : Reg, a.val = rA.toNat ∧ t = (s.setReg a (f (s.reg a))).advance (s.width m) := by
  obtain ⟨a, ha, h⟩ := withRegister_next h
  injection h with h
  exact ⟨a, ha, h.symm⟩

theorem execDiv_next (h : execDiv rA rB s = .next t) :
    ∃ a b : Reg, a.val = rA.toNat ∧ b.val = rB.toNat ∧
      ((s.reg b = 0#8 ∧ t = (s.report .divByZero).halt.advance (s.width .div)) ∨
        (s.reg b ≠ 0#8 ∧ t = (s.setReg a (aluDiv (s.reg a) (s.reg b))).advance (s.width .div))) := by
  obtain ⟨a, b, ha, hb, h⟩ := withRegisters_next h
  refine ⟨a, b, ha, hb, ?_⟩
  split at h <;> injection h with h
  · exact .inl ⟨‹_›, h.symm⟩
  · exact .inr ⟨‹_›, h.symm⟩

theorem execMod_next (h : execMod rA rB s = .next t) :
    ∃ a b : Reg, a.val = rA.toNat ∧ b.val = rB.toNat ∧
      ((s.reg b = 0#8 ∧ t = (s.report .modByZero).advance (s.width .mod)) ∨
        (s.reg b ≠ 0#8 ∧ t = (s.setReg a (aluMod (s.reg a) (s.reg b))).advance (s.width .mod))) := by
  obtain ⟨a, b, ha, hb, h⟩ := withRegisters_next h
  refine ⟨a, b, ha, hb, ?_⟩
  split at h <;> injection h with h
  · exact .inl ⟨‹_›, h.symm⟩
  · exact .inr ⟨‹_›, h.symm⟩

theorem execCmp_next (h : execCmp rA rB s = .next t) :
    ∃ a b : Reg, a.val = rA.toNat ∧ b.val = rB.toNat ∧
      t = (s.setFl (compareFlags s.params (s.reg a) (s.reg b))).advance (s.width .cmp) := by
  obtain ⟨a, b, ha, hb, h⟩ := withRegisters_next h
  injection h with h
  exact ⟨a, b, ha, hb, h.symm⟩

theorem execLdi_next (h : execLdi rA imm s = .next t) :
    ∃ a : Reg, a.val = rA.toNat ∧ t = (s.setReg a imm).advance (s.width .ldi) := by
  obtain ⟨a, ha, h⟩ := withRegister_next h
  injection h with h
  exact ⟨a, ha, h.symm⟩

theorem execPrn_next (h : execPrn rA s = .next t) :
    ∃ a : Reg, a.val = rA.toNat ∧ t = (s.emit (decimalDigits (s.reg a) ++ [newline])).advance (s.width .prn) := by
  obtain ⟨a, ha, h⟩ := withRegister_next h
  injection h with h
  exact ⟨a, ha, h.symm⟩

theorem execPra_next (h : execPra rA s = .next t) :
    ∃ a : Reg, a.val = rA.toNat ∧ t = (s.emit [s.reg a]).advance (s.width .pra) := by
  obtain ⟨a, ha, h⟩ := withRegister_next h
  injection h with h
  exact ⟨a, ha, h.symm⟩

theorem execPush_next (h : execPush rA s = .next t) :
    ∃ a : Reg, a.val = rA.toNat ∧ t = (s.pushByte (s.reg a)).advance (s.width .push) := by
  obtain ⟨a, ha, h⟩ := withRegister_next h
  injection h with h
  exact ⟨a, ha, h.symm⟩

theorem execPop_next (h : execPop rA s = .next t) :
    ∃ a : Reg, a.val = rA.toNat ∧ t = (s.pop.2.setReg a s.pop.1).advance (s.width .pop) := by
  obtain ⟨a, ha, h⟩ := withRegister_next h
  injection h with h
  exact ⟨a, ha, h.symm⟩

theorem execCall_next (h : execCall rA s = .next t) :
    ∃ a : Reg, a.val = rA.toNat ∧ s.pc + 2 < 256 ∧
      t = (s.pushByte (BitVec.ofNat 8 (s.pc + 2))).jumpTo ((s.pushByte (BitVec.ofNat 8 (s.pc + 2))).reg a) := by
  obtain ⟨a, ha, h⟩ := withRegister_next h
  rw [State.push_eq] at h
  by_cases hp : s.pc + 2 < 256
  · rw [if_pos hp] at h
    injection h with h
    exact ⟨a, ha, hp, h.symm⟩
  · rw [if_neg hp] at h; cases h

/-- The one fault of CALL beside those of its operand: the return address does not fit a byte (R174). -/
theorem execCall_fault {f : Fault} (h : execCall rA s = .fault f) :
    f = .badRegisterIndex rA ∨ (256 ≤ s.pc + 2 ∧ f = .pcNotStorable (s.pc + 2)) := by
  rcases withRegister_fault h with h | ⟨a, h⟩
  · exact .inl h
  · rw [State.push_eq] at h
    by_cases hp : s.pc + 2 < 256
    · rw [if_pos hp] at h; cases h
    · rw [if_neg hp] at h
      injection h with h
      exact .inr ⟨by omega, h.symm⟩

/-- The conditional jumps. -/
theorem jumpIf_next {m : Mnemonic} {c : Bool} (h : jumpIf m c rA s = .next t) :
    ∃ a : Reg, a.val = rA.toNat ∧
      ((c = true ∧ t = s.jumpTo (s.reg a)) ∨ (c = false ∧ t = s.advance (s.width m))) := by
  obtain ⟨a, ha, h⟩ := withRegister_next h
  injection h with h
  subst h
  cases c
  · exact ⟨a, ha, .inr ⟨rfl, rfl⟩⟩
  · exact ⟨a, ha, .inl ⟨rfl, rfl⟩⟩

theorem execInt_next (h : execInt rA s = .next t) :
    ∃ a : Reg, a.val = rA.toNat ∧
      t = ((s.setReg s.params.isReg (s.reg a)).setElig (s.elig || s.params.intSetsElig)).advance (s.width .int) := by
  obtain ⟨a, ha, h⟩ := withRegister_next h
  injection h with h
  exact ⟨a, ha, h.symm⟩

theorem execJmp_next (h : execJmp rA s = .next t) : ∃ a : Reg, a.val = rA.toNat ∧ t = s.jumpTo (s.reg a) := by
  obtain ⟨a, ha, h⟩ := withRegister_next h
  injection h with h
  exact ⟨a, ha, h.symm⟩

theorem execLd_next (h : execLd rA rB s = .next t) :
    ∃ a b : Reg, a.val = rA.toNat ∧ b.val = rB.toNat ∧
      t = (s.setReg a (s.mem.get (s.reg b).toNat)).advance (s.width .ld) := by
  obtain ⟨a, b, ha, hb, h⟩ := withRegisters_next h
  injection h with h
  exact ⟨a, b, ha, hb, h.symm⟩

theorem execSt_next (h : execSt rA rB s = .next t) :
    ∃ a b : Reg, a.val = rA.toNat ∧ b.val = rB.toNat ∧
      t = (s.storeByte (s.reg a) (s.reg b)).advance (s.width .st) := by
  obtain ⟨a, b, ha, hb, h⟩ := withRegisters_next h
  injection h with h
  exact ⟨a, b, ha, hb, h.symm⟩

end Sys2Proof.Machine
end

