-- ==== Sys2Proof/Laws/PerInstr.lean ====
section
/-! SUPPORT. The families of lemmas that are stated per instruction. -/

/-- The encoding of an instruction is as long as its width says (R71, R73). -/
def Sys2Proof.Laws.EncodedLength.Statement (i : Sys2Proof.Instr) : Prop :=
  ∀ p : Sys2Proof.Params, (Sys2Proof.encode p i).length = i.width

namespace Sys2Proof.Laws.EncodedLength

theorem nop : Statement (.nop) := fun _ => rfl
theorem hlt : Statement (.hlt) := fun _ => rfl
theorem ret : Statement (.ret) := fun _ => rfl
theorem iret : Statement (.iret) := fun _ => rfl
theorem push (rA : Byte) : Statement (.push rA) := fun _ => rfl
theorem pop (rA : Byte) : Statement (.pop rA) := fun _ => rfl
theorem prn (rA : Byte) : Statement (.prn rA) := fun _ => rfl
theorem pra (rA : Byte) : Statement (.pra rA) := fun _ => rfl
theorem call (rA : Byte) : Statement (.call rA) := fun _ => rfl
theorem int (rA : Byte) : Statement (.int rA) := fun _ => rfl
theorem jmp (rA : Byte) : Statement (.jmp rA) := fun _ => rfl
theorem jeq (rA : Byte) : Statement (.jeq rA) := fun _ => rfl
theorem jne (rA : Byte) : Statement (.jne rA) := fun _ => rfl
theorem jgt (rA : Byte) : Statement (.jgt rA) := fun _ => rfl
theorem jlt (rA : Byte) : Statement (.jlt rA) := fun _ => rfl
theorem jle (rA : Byte) : Statement (.jle rA) := fun _ => rfl
theorem jge (rA : Byte) : Statement (.jge rA) := fun _ => rfl
theorem inc (rA : Byte) : Statement (.inc rA) := fun _ => rfl
theorem dec (rA : Byte) : Statement (.dec rA) := fun _ => rfl
theorem not (rA : Byte) : Statement (.not rA) := fun _ => rfl
theorem ldi (rA imm : Byte) : Statement (.ldi rA imm) := fun _ => rfl
theorem ld (rA rB : Byte) : Statement (.ld rA rB) := fun _ => rfl
theorem st (rA rB : Byte) : Statement (.st rA rB) := fun _ => rfl
theorem add (rA rB : Byte) : Statement (.add rA rB) := fun _ => rfl
theorem sub (rA rB : Byte) : Statement (.sub rA rB) := fun _ => rfl
theorem mul (rA rB : Byte) : Statement (.mul rA rB) := fun _ => rfl
theorem div (rA rB : Byte) : Statement (.div rA rB) := fun _ => rfl
theorem mod (rA rB : Byte) : Statement (.mod rA rB) := fun _ => rfl
theorem cmp (rA rB : Byte) : Statement (.cmp rA rB) := fun _ => rfl
theorem and (rA rB : Byte) : Statement (.and rA rB) := fun _ => rfl
theorem or (rA rB : Byte) : Statement (.or rA rB) := fun _ => rfl
theorem xor (rA rB : Byte) : Statement (.xor rA rB) := fun _ => rfl
theorem shl (rA rB : Byte) : Statement (.shl rA rB) := fun _ => rfl
theorem shr (rA rB : Byte) : Statement (.shr rA rB) := fun _ => rfl

end Sys2Proof.Laws.EncodedLength
end

