-- ==== Sys2Proof/Laws/Time.lean ====
section
/-! SUPPORT. The spans of time as rational numbers, and what the timer poll can do (rules R231, R232). -/

namespace Sys2Proof.Machine

theorem Seconds.wf_reduce {n d : Nat} (h : 0 < d) : (Seconds.reduce n d).wf := by
  have hg : 0 < Nat.gcd n d := Nat.gcd_pos_of_pos_right n h
  exact ⟨Nat.div_pos (Nat.le_of_dvd h (Nat.gcd_dvd_right n d)) hg, Nat.coprime_div_gcd_div_gcd hg⟩

theorem Seconds.toRat_reduce {n d : Nat} (h : 0 < d) : (Seconds.reduce n d).toRat = (n : ℚ) / d := by
  have hg : (Nat.gcd n d : ℚ) ≠ 0 := by
    have := Nat.gcd_pos_of_pos_right n h
    positivity
  have hn : ((n / Nat.gcd n d : Nat) : ℚ) = n / (Nat.gcd n d : ℚ) :=
    Nat.cast_div (Nat.gcd_dvd_left n d) hg
  have hd : ((d / Nat.gcd n d : Nat) : ℚ) = d / (Nat.gcd n d : ℚ) :=
    Nat.cast_div (Nat.gcd_dvd_right n d) hg
  simp only [Seconds.reduce, Seconds.toRat, hn, hd]
  field_simp

theorem Seconds.wf_add {t u : Seconds} (ht : t.wf) (hu : u.wf) : (Seconds.add t u).wf :=
  Seconds.wf_reduce (Nat.mul_pos ht.1 hu.1)

/-- Addition is addition of the rationals. -/
theorem Seconds.toRat_add {t u : Seconds} (ht : t.wf) (hu : u.wf) :
    (Seconds.add t u).toRat = t.toRat + u.toRat := by
  have h1 : (t.den : ℚ) ≠ 0 := by exact_mod_cast ht.1.ne'
  have h2 : (u.den : ℚ) ≠ 0 := by exact_mod_cast hu.1.ne'
  rw [Seconds.add, Seconds.toRat_reduce (Nat.mul_pos ht.1 hu.1)]
  simp only [Seconds.toRat]
  push_cast
  field_simp

/-- The comparison with the period is the comparison of the rational with 1. -/
theorem Seconds.reachesPeriod_iff {t : Seconds} (h : t.wf) : Seconds.reachesPeriod t = true ↔ 1 ≤ t.toRat := by
  have hd : (0 : ℚ) < t.den := by exact_mod_cast h.1
  rw [Seconds.reachesPeriod, decide_eq_true_iff, Seconds.toRat, le_div_iff₀ hd, one_mul]
  exact Nat.cast_le.symm

theorem Seconds.wf_lessPeriod {t : Seconds} (h : t.wf) (hp : Seconds.reachesPeriod t = true) :
    (Seconds.lessPeriod t).wf := by
  have hp : t.den ≤ t.num := by simpa [Seconds.reachesPeriod] using hp
  exact ⟨h.1, by simpa [Seconds.lessPeriod, Nat.gcd_sub_self_left hp] using h.2⟩

/-- Less the period is less 1. -/
theorem Seconds.toRat_lessPeriod {t : Seconds} (h : t.wf) (hp : Seconds.reachesPeriod t = true) :
    (Seconds.lessPeriod t).toRat = t.toRat - 1 := by
  have hp : t.den ≤ t.num := by simpa [Seconds.reachesPeriod] using hp
  have hd : (t.den : ℚ) ≠ 0 := by exact_mod_cast h.1.ne'
  simp only [Seconds.lessPeriod, Seconds.toRat, Nat.cast_sub hp]
  field_simp

/-- A free time input is a proper fraction. -/
theorem freeInput_wf (k : Nat) : (freeInput k).wf := Seconds.wf_reduce (Nat.succ_pos _)

/-- The elapsed time of a cycle is the first of the inputs given. -/
theorem State.elapsed_of_inputs {s : State} {dt : Seconds} {rest : List Seconds} (h : s.time.inputs = dt :: rest) :
    s.elapsed = dt := by
  simp [State.elapsed, TimeSource.first, h]

/-- When no input is given, the elapsed time of a cycle is free (R232). -/
theorem State.elapsed_of_no_inputs {s : State} (h : s.time.inputs = []) : s.elapsed = freeInput s.time.taken := by
  simp [State.elapsed, TimeSource.first, h]

/-- The elapsed time of a cycle is a proper fraction when the inputs are. -/
theorem State.elapsed_wf {s : State} (h : ∀ t ∈ s.time.inputs, t.wf) : s.elapsed.wf := by
  cases hs : s.time.inputs with
  | nil => rw [State.elapsed_of_no_inputs hs]; exact freeInput_wf _
  | cons t ts => rw [State.elapsed_of_inputs hs]; exact h t (by simp [hs])

/-- Everything a timer poll can do (R231): a tick, or none. -/
theorem State.timerPoll_cases (s : State) :
    (Seconds.reachesPeriod (Seconds.add s.tacc s.elapsed) = true ∧
      s.timerPoll = { s.setReg s.params.isReg (s.is ||| lineBit Config.timerLine) with
        tacc := Seconds.lessPeriod (Seconds.add s.tacc s.elapsed), elig := true, time := s.time.rest }) ∨
    (Seconds.reachesPeriod (Seconds.add s.tacc s.elapsed) = false ∧
      s.timerPoll = { s with tacc := Seconds.add s.tacc s.elapsed, time := s.time.rest }) := by
  unfold State.timerPoll
  cases h : Seconds.reachesPeriod (Seconds.add s.tacc s.elapsed) with
  | true => exact .inl ⟨rfl, by simp only [h, ↓reduceIte]; rfl⟩
  | false => exact .inr ⟨rfl, by simp only [h, Bool.false_eq_true, ↓reduceIte]⟩

section
variable (s : State)

@[simp] theorem State.pc_timerPoll : s.timerPoll.pc = s.pc := by
  rcases s.timerPoll_cases with ⟨_, h⟩ | ⟨_, h⟩ <;> simp [h]
@[simp] theorem State.fl_timerPoll : s.timerPoll.fl = s.fl := by
  rcases s.timerPoll_cases with ⟨_, h⟩ | ⟨_, h⟩ <;> simp [h]
@[simp] theorem State.ie_timerPoll : s.timerPoll.ie = s.ie := by
  rcases s.timerPoll_cases with ⟨_, h⟩ | ⟨_, h⟩ <;> simp [h]
@[simp] theorem State.mem_timerPoll : s.timerPoll.mem = s.mem := by
  rcases s.timerPoll_cases with ⟨_, h⟩ | ⟨_, h⟩ <;> simp [h]
@[simp] theorem State.status_timerPoll : s.timerPoll.status = s.status := by
  rcases s.timerPoll_cases with ⟨_, h⟩ | ⟨_, h⟩ <;> simp [h]
@[simp] theorem State.out_timerPoll : s.timerPoll.out = s.out := by
  rcases s.timerPoll_cases with ⟨_, h⟩ | ⟨_, h⟩ <;> simp [h]
@[simp] theorem State.msg_timerPoll : s.timerPoll.msg = s.msg := by
  rcases s.timerPoll_cases with ⟨_, h⟩ | ⟨_, h⟩ <;> simp [h]
@[simp] theorem State.time_timerPoll : s.timerPoll.time = s.time.rest := by
  rcases s.timerPoll_cases with ⟨_, h⟩ | ⟨_, h⟩ <;> simp [h]
@[simp] theorem State.params_timerPoll : s.timerPoll.params = s.params := by
  rcases s.timerPoll_cases with ⟨_, h⟩ | ⟨_, h⟩ <;> simp [h]

/-- The timer poll writes no register but IS. -/
theorem State.reg_timerPoll {r : Reg} (hr : r ≠ s.params.isReg) : s.timerPoll.reg r = s.reg r := by
  rcases s.timerPoll_cases with ⟨_, h⟩ | ⟨_, h⟩
  · rw [h]; exact State.reg_setReg_of_ne s hr _
  · rw [h]; rfl

end

/-- What a found line says: ELIG and IE are set, the line is pending and enabled, and no lower line is (R233). -/
theorem State.interruptCheck_some {s : State} {i : Line} (h : s.interruptCheck = some i) :
    s.elig = true ∧ s.ie = true ∧ s.im.getLsbD i.val = true ∧ s.is.getLsbD i.val = true := by
  unfold State.interruptCheck at h
  split at h
  · rename_i hc
    have hf := List.find?_some h
    simp only [Bool.and_eq_true] at hc
    simp only [BitVec.getLsbD_and, Bool.and_eq_true] at hf
    exact ⟨hc.1, hc.2, hf.1, hf.2⟩
  · cases h

end Sys2Proof.Machine
end

