-- ==== Sys2Proof/Laws/Step.lean ====
section
/-! SUPPORT. What a fetch and a step can do (rules R90 to R97). -/

namespace Sys2Proof.Machine

variable {s t : State}

/-- The bytes fetched are those of memory, as far as memory goes (R73, R91, R94). -/
theorem State.bytesFrom_eq (s : State) (n a : Nat) :
    s.bytesFrom n a = (List.range' a (min n (256 - a))).map s.mem.get := by
  induction n generalizing a with
  | zero => simp [State.bytesFrom]
  | succ n ih =>
    by_cases h : a < 256
    · have hm : min (n + 1) (256 - a) = min n (256 - (a + 1)) + 1 := by omega
      simp [State.bytesFrom, State.memRead, h, ih, hm, List.range'_succ]
    · have hm : min (n + 1) (256 - a) = 0 := by omega
      simp [State.bytesFrom, State.memRead, h, hm]

/-- The fetch reads the opcode and as many bytes after it as its bits 7:6 say, as far as memory goes (R91, R92,
R94). -/
theorem State.fetch_eq (s : State) (h : s.pc ≤ 255) :
    s.fetch = s.mem.get s.pc ::
      (List.range' (s.pc + 1) (min (operandCountOf (s.mem.get s.pc)) (255 - s.pc))).map s.mem.get := by
  have h' : s.pc < 256 := by omega
  have hm : 256 - (s.pc + 1) = 255 - s.pc := by omega
  simp [State.fetch, State.memRead, h', State.bytesFrom_eq, hm]

/-- At 256 and above there is nothing to fetch (R91). -/
theorem State.fetch_eq_nil (s : State) (h : 256 ≤ s.pc) : s.fetch = [] := by
  have h' : ¬ s.pc < 256 := by omega
  simp [State.fetch, State.memRead, h']

/-- The timer poll changes nothing that the fetch reads. -/
@[simp] theorem State.fetch_timerPoll (s : State) : s.timerPoll.fetch = s.fetch := by
  by_cases h : s.pc ≤ 255
  · rw [State.fetch_eq s h, State.fetch_eq _ (by simpa using h)]; simp
  · rw [State.fetch_eq_nil s (by omega), State.fetch_eq_nil _ (by simp; omega)]

/-- Everything a step that answers a next state can do (R90, R96, R97): nothing, in a terminal status; the entry
of an interrupt; or one instruction. -/
theorem step_next (h : step s = .next t) :
    (s.status ≠ .running ∧ t = s) ∨
    (∃ i, s.interrupted i ∧ s.timerPoll.enterInterrupt i = .ok t) ∨
    (s.fetches ∧ ∃ i, decode s.params s.fetch = .ok i ∧ exec i s.timerPoll = .next t) := by
  unfold step at h
  cases hs : s.status with
  | running =>
    rw [hs] at h
    simp only [runCycle] at h
    cases hc : s.timerPoll.interruptCheck with
    | some i =>
      rw [hc] at h
      refine .inr (.inl ⟨i, ⟨hs, hc⟩, ?_⟩)
      simp only [outcomeOf] at h
      split at h
      · injection h with h; subst h; assumption
      · cases h
    | none =>
      rw [hc] at h
      refine .inr (.inr ⟨⟨hs, hc⟩, ?_⟩)
      simp only [runInstruction, State.params_timerPoll, State.fetch_timerPoll] at h
      split at h
      · exact ⟨_, by assumption, h⟩
      · simp only [rejection] at h
        split at h <;> cases h
  | halted => rw [hs] at h; injection h with h; exact .inl ⟨by simp, h.symm⟩
  | faulted f => rw [hs] at h; injection h with h; exact .inl ⟨by simp, h.symm⟩
  | refused op => rw [hs] at h; injection h with h; exact .inl ⟨by simp, h.symm⟩

/-- The step of a cycle that fetches is the instruction, or the rejection of its bytes. -/
theorem step_of_fetches (h : s.fetches) : step s = runInstruction s.timerPoll := by
  simp [step, h.1, runCycle, h.2]

/-- The step of a cycle that is interrupted is the entry. -/
theorem step_of_interrupted {i : Line} (h : s.interrupted i) : step s = outcomeOf (s.timerPoll.enterInterrupt i) := by
  simp [step, h.1, runCycle, h.2]

end Sys2Proof.Machine
end

