-- ==== Sys2Proof/Tests/Slice0.lean ====
section
/-! SUPPORT. The model's own tests: the well-formedness smoke test, a word of every instruction written out from
the table of R76, one step for each instruction with the results of 95_test_vectors.md, and for each statement with
hypotheses a witness that meets them, clause by clause. -/

namespace Sys2Proof.Tests

open Sys2Proof.Machine Sys2Proof.Claims

/-! ## Helpers -/

/-- A time source with these inputs given. -/
def given (dts : List Seconds) : TimeSource := ⟨dts, 0⟩

/-- The reset state with some registers set, the program counter moved and bytes stored there; its next cycle does not
tick, for its time input is given as 0. -/
def machine (regs : List (Reg × Byte)) (pc : Nat) (code : List Byte) : State :=
  { regs.foldl (fun s c => s.setReg c.1 c.2) State.reset with
    pc := pc, mem := Memory.setAll [] pc code, time := given [⟨0, 1⟩] }

/-- Bytes stored from an address on. -/
def withBytes (s : State) (a : Nat) (bs : List Byte) : State := { s with mem := Memory.setAll s.mem a bs }

/-- A machine that enters line 1: IM = 0x0F, IS = 0x06, ELIG = 1, slot 1 holds 0x40 (V105). -/
def pending (pc : Nat) : State :=
  { machine [(5, 0x0F), (6, 0x06)] pc [] with mem := [(0xF9, 0x40)], elig := true }

/-- The same parameters with the stack pointer in R4, so that there are registers above and below it. -/
def spInR4 : Params := { Params.default with spReg := 4 }

/-- One second. -/
def second : Seconds := ⟨1, 1⟩

/-- The next state of an outcome, if it is one. -/
def nextOf : Host.Outcome State Fault Refusal → Option State
  | .next t => some t
  | .fault _ => none
  | .refused _ => none

/-- The fault of an outcome, if it is one. -/
def faultOf : Host.Outcome State Fault Refusal → Option Fault
  | .next _ => none
  | .fault f => some f
  | .refused _ => none

/-- The refusal of an outcome, if it is one. -/
def refusalOf : Host.Outcome State Fault Refusal → Option Refusal
  | .next _ => none
  | .fault _ => none
  | .refused r => some r

/-- One step, seen through a function of the next state. -/
def after {α : Type} (s : State) (f : State → α) : Option α := (nextOf (step s)).map f

/-- Whether bytes decode to an instruction under the parameters of reset. -/
def reads (bs : List Byte) (i : Instr) : Bool :=
  match decode Params.admitting bs with
  | .ok j => j == i
  | .error _ => false

/-! ## Well-formedness (R74, R75) -/

theorem test_wf_accepts_registers_and_any_immediate :
    (Instr.add 0 7).wf = true ∧ (Instr.ldi 7 0xFF).wf = true ∧ Instr.ret.wf = true := by decide

theorem test_wf_refuses_a_first_register_of_8 :
    (Instr.push 8).wf = false ∧ (Instr.ldi 8 0).wf = false ∧ (Instr.cmp 8 0).wf = false := by decide

theorem test_wf_refuses_a_second_register_of_8 : (Instr.add 0 8).wf = false ∧ (Instr.st 7 0xFF).wf = false := by
  decide

/-! ## Decoding: the binary column of the table of R76, with the operand bytes of R73 -/

theorem test_decode_no_operand :
    reads [0b00000000] .nop ∧ reads [0b00000001] .hlt ∧ reads [0b00010001] .ret ∧ reads [0b00010011] .iret := by
  decide

theorem test_decode_stack_and_output :
    reads [0b01000101, 0b00000110] (.push 6) ∧ reads [0b01000110, 0b00000001] (.pop 1) ∧
    reads [0b01000111, 0b00000010] (.prn 2) ∧ reads [0b01001000, 0b00000011] (.pra 3) := by decide

theorem test_decode_transfer :
    reads [0b01010000, 0b00000100] (.call 4) ∧ reads [0b01010010, 0b00000101] (.int 5) ∧
    reads [0b01010100, 0b00000111] (.jmp 7) := by decide

theorem test_decode_conditional_jumps :
    reads [0b01010101, 0b00000001] (.jeq 1) ∧ reads [0b01010110, 0b00000010] (.jne 2) ∧
    reads [0b01010111, 0b00000011] (.jgt 3) ∧ reads [0b01011000, 0b00000100] (.jlt 4) ∧
    reads [0b01011001, 0b00000101] (.jle 5) ∧ reads [0b01011010, 0b00000110] (.jge 6) := by decide

theorem test_decode_one_register_alu :
    reads [0b01100101, 0b00000001] (.inc 1) ∧ reads [0b01100110, 0b00000010] (.dec 2) ∧
    reads [0b01101001, 0b00000100] (.not 4) := by decide

theorem test_decode_loads_and_store :
    reads [0b10000010, 0b00000001, 0b11111111] (.ldi 1 255) ∧
    reads [0b10000011, 0b00000010, 0b00000101] (.ld 2 5) ∧
    reads [0b10000100, 0b00000101, 0b00000010] (.st 5 2) := by decide

theorem test_decode_arithmetic :
    reads [0b10100000, 0b00000001, 0b00000010] (.add 1 2) ∧ reads [0b10100001, 0b00000001, 0b00000010] (.sub 1 2) ∧
    reads [0b10100010, 0b00000001, 0b00000010] (.mul 1 2) ∧ reads [0b10100011, 0b00000001, 0b00000010] (.div 1 2) ∧
    reads [0b10100100, 0b00000001, 0b00000010] (.mod 1 2) ∧
    reads [0b10100111, 0b00000001, 0b00000010] (.cmp 1 2) := by decide

theorem test_decode_logic :
    reads [0b10101000, 0b00000001, 0b00000010] (.and 1 2) ∧ reads [0b10101010, 0b00000001, 0b00000010] (.or 1 2) ∧
    reads [0b10101011, 0b00000001, 0b00000010] (.xor 1 2) ∧ reads [0b10101100, 0b00000001, 0b00000010] (.shl 1 2) ∧
    reads [0b10101101, 0b00000001, 0b00000010] (.shr 1 2) := by decide

/-- The bits as the opcode table numbers them: LDI R0, 8 is `82 00 08`, the opcode in bits 7:0 (R55). -/
theorem test_decode_table_word :
    decodeTableWord 24 0x080082 = some (.ldi 0 8) ∧ decodeTableWord 8 0x01 = some .hlt ∧
    decodeTableWord 8 0x082 = some (.ldi 0 0) ∧ decodeTableWord 8 0x02 = none := by decide

/-- A word placed by `withFetchWord` is the one the next step runs: LDI R0, 8 from reset, and from a halted machine
at pc = 256 with an interrupt pending. -/
theorem test_with_fetch_word :
    after (State.reset.withFetchWord 24 0x080082) (fun t => t.reg 0) = some 8 ∧
    after ({ pending 256 with status := .halted }.withFetchWord 24 0x080082) (fun t => t.reg 0) = some 8 := by decide

/-! ## One step for each instruction: the vectors of 95_test_vectors.md -/

theorem test_hlt_V1_V2 :
    after (machine [] 5 [0x01]) (fun t => (t.status, t.pc)) = some (.halted, 6) ∧
    after (machine [] 255 [0x01]) (fun t => (t.status, t.pc)) = some (.halted, 256) := by decide

theorem test_ldi_V4_V6 :
    after (machine [] 0 [0x82, 0, 0xC8]) (fun t => (t.reg 0, t.pc)) = some (200, 3) ∧
    after (machine [] 0 [0x82, 6, 1]) (fun t => (t.is, t.elig)) = some (1, false) := by decide

theorem test_ldi_V7 :
    faultOf (step (machine [] 0 [0x82, 9, 1])) = some (.badRegisterIndex 9) ∧
    (cycle (machine [] 0 [0x82, 9, 1])).msg = [.crash (.badRegisterIndex 9)] ∧
    (cycle (machine [] 0 [0x82, 9, 1])).status.exitCode = some 1 := by decide

theorem test_prn_V8_V9_V10 :
    after (machine [] 0 [0x47, 0]) (fun t => t.out) = some [48, 10] ∧
    after (machine [(0, 255)] 0 [0x47, 0]) (fun t => t.out) = some [50, 53, 53, 10] ∧
    after (machine [(0, 72)] 0 [0x47, 0]) (fun t => t.out) = some [55, 50, 10] := by decide

theorem test_pra_V11 : after (machine [(1, 65)] 0 [0x48, 1]) (fun t => (t.out, t.pc)) = some ([65], 2) := by decide

theorem test_add_V21_V22 :
    after (machine [(0, 200), (1, 100)] 0 [0xA0, 0, 1]) (fun t => t.reg 0) = some 44 ∧
    after (machine [(0, 130)] 0 [0xA0, 0, 0]) (fun t => t.reg 0) = some 4 := by decide

theorem test_add_V23 : after (machine [(1, 0x10)] 0 [0xA0, 7, 1]) (fun t => t.sp) = some 4 := by decide

theorem test_sub_V25 : after (machine [(0, 3), (1, 5)] 0 [0xA1, 0, 1]) (fun t => t.reg 0) = some 254 := by decide

theorem test_mul_V28_V29 :
    after (machine [(0, 16), (1, 16)] 0 [0xA2, 0, 1]) (fun t => t.reg 0) = some 0 ∧
    after (machine [(0, 255), (1, 255)] 0 [0xA2, 0, 1]) (fun t => t.reg 0) = some 1 := by decide

theorem test_div_V31 : after (machine [(0, 7), (1, 2)] 0 [0xA3, 0, 1]) (fun t => t.reg 0) = some 3 := by decide

theorem test_div_V34 :
    after (machine [(0, 10)] 0 [0xA3, 0, 1]) (fun t => (t.reg 0, t.msg, t.status, t.pc)) =
      some (10, [.divByZero], .halted, 3) := by decide

theorem test_mod_V38 : after (machine [(0, 5), (1, 7)] 0 [0xA4, 0, 1]) (fun t => t.reg 0) = some 5 := by decide

theorem test_mod_V39 :
    after (machine [(0, 10)] 0 [0xA4, 0, 1]) (fun t => (t.reg 0, t.msg, t.status, t.pc)) =
      some (10, [.modByZero], .running, 3) := by decide

theorem test_inc_V40_dec_V42 :
    after (machine [(2, 255)] 0 [0x65, 2]) (fun t => t.reg 2) = some 0 ∧
    after (machine [] 0 [0x66, 2]) (fun t => t.reg 2) = some 255 := by decide

theorem test_not_V44 : after (machine [(0, 0x0F)] 0 [0x69, 0]) (fun t => t.reg 0) = some 0xF0 := by decide

theorem test_logic_V46_V47_V48 :
    after (machine [(0, 0xF0), (1, 0x3C)] 0 [0xA8, 0, 1]) (fun t => t.reg 0) = some 0x30 ∧
    after (machine [(0, 0xF0), (1, 0x3C)] 0 [0xAA, 0, 1]) (fun t => t.reg 0) = some 0xFC ∧
    after (machine [(0, 0xF0), (1, 0x3C)] 0 [0xAB, 0, 1]) (fun t => t.reg 0) = some 0xCC := by decide

theorem test_shl_V51_V53_V55 :
    after (machine [(0, 0x81), (1, 1)] 0 [0xAC, 0, 1]) (fun t => t.reg 0) = some 2 ∧
    after (machine [(0, 1), (1, 255)] 0 [0xAC, 0, 1]) (fun t => t.reg 0) = some 0 ∧
    after (machine [(0, 3)] 0 [0xAC, 0, 0]) (fun t => t.reg 0) = some 24 := by decide

theorem test_shr_V57_V58 :
    after (machine [(0, 0xFF), (1, 8)] 0 [0xAD, 0, 1]) (fun t => t.reg 0) = some 0 ∧
    after (machine [(0, 0x80), (1, 1)] 0 [0xAD, 0, 1]) (fun t => t.reg 0) = some 0x40 := by decide

theorem test_cmp_V59_V61 :
    after { machine [(0, 0x80), (1, 0x7F)] 0 [0xA7, 0, 1] with fl := 0xFF } (fun t => t.fl) = some 2 ∧
    after (machine [(1, 255)] 0 [0xA7, 0, 1]) (fun t => t.fl) = some 4 := by decide

theorem test_register_check_order_V63_V64 :
    faultOf (step (machine [] 0 [0xA0, 9, 10])) = some (.badRegisterIndex 9) ∧
    faultOf (step (machine [(0, 1)] 0 [0xA3, 0, 9])) = some (.badRegisterIndex 9) := by decide

theorem test_push_V71_V72 :
    after (machine [] 0 [0x45, 7]) (fun t => (t.mem.get 0xF3, t.sp)) = some (0xF4, 0xF3) ∧
    after (machine [(0, 0x33), (7, 0)] 0 [0x45, 0]) (fun t => (t.mem.get 0xFF, t.sp)) = some (0x33, 0xFF) := by
  decide

theorem test_pop_V74_V75 :
    after (withBytes (machine [(7, 0xF3)] 0 [0x46, 7]) 0xF3 [0x42]) (fun t => t.sp) = some 0x42 ∧
    after (withBytes (machine [(7, 0xFF)] 0 [0x46, 1]) 0xFF [0x99]) (fun t => (t.reg 1, t.sp)) =
      some (0x99, 0) := by decide

theorem test_call_V78_V79 :
    after (machine [] 3 [0x50, 7]) (fun t => (t.mem.get 0xF3, t.sp, t.pc)) = some (5, 0xF3, 0xF3) ∧
    faultOf (step (machine [] 254 [0x50, 0])) = some (.pcNotStorable 256) := by decide

theorem test_ret_V81 :
    after (withBytes (machine [(7, 0xF3)] 0 [0x11]) 0xF3 [5]) (fun t => (t.pc, t.sp)) = some (5, 0xF4) := by decide

/-- The rows FL = 0x03 and FL = 0x06 of the table of 2.4: taken is 0x20, not taken is 12. -/
theorem test_conditional_jumps :
    ([0x55, 0x56, 0x57, 0x58, 0x5A, 0x59].map fun op =>
      after { machine [(1, 0x20)] 10 [op, 1] with fl := 3 } (fun t => t.pc)) =
        [some 0x20, some 12, some 0x20, some 12, some 0x20, some 0x20] ∧
    ([0x55, 0x56, 0x57, 0x58, 0x5A, 0x59].map fun op =>
      after { machine [(1, 0x20)] 10 [op, 1] with fl := 6 } (fun t => t.pc)) =
        [some 12, some 0x20, some 0x20, some 0x20, some 0x20, some 0x20] := by decide

/-- JGE and JLE with FL = 0x08 differ under the two readings (the last row of the table of 2.4). -/
theorem test_condition_readings :
    ([CondReading.bits, CondReading.notLess].map fun r => [0x5A, 0x59].map fun op =>
      after { machine [(1, 0x20)] 10 [op, 1] with fl := 8, params := { Params.default with condReading := r } }
        (fun t => t.pc)) = [[some 12, some 12], [some 0x20, some 0x20]] := by decide

theorem test_int_V100_V103 :
    after (machine [(0, 1), (5, 1)] 17 [0x52, 0]) (fun t => (t.is, t.elig, t.pc)) = some (1, true, 19) ∧
    after (machine [(6, 5)] 0 [0x52, 6]) (fun t => (t.is, t.elig)) = some (5, true) := by decide

theorem test_iret_V110 :
    after { withBytes (machine [(7, 0xEA)] 0x20 [0x13]) 0xEA [0xEB, 0, 1, 5, 4, 3, 2, 1, 4, 0x13] with ie := false }
      (fun t => (t.x.toList, t.fl, t.pc, t.ie, t.elig)) =
        some ([1, 2, 3, 4, 5, 1, 0, 0xF4], 4, 19, true, false) := by decide

theorem test_nop_V140_jmp_V141 :
    after (machine [] 7 [0x00]) (fun t => t.pc) = some 8 ∧
    after (machine [(2, 0x10)] 0 [0x54, 2]) (fun t => t.pc) = some 0x10 := by decide

theorem test_ld_V142_st_V143 :
    after (withBytes (machine [(1, 0xF8)] 0 [0x83, 0, 1]) 0xF8 [0x16]) (fun t => (t.reg 0, t.pc)) = some (0x16, 3) ∧
    after (machine [(0, 0xF8), (1, 0x16)] 0 [0x84, 0, 1]) (fun t => (t.mem.get 0xF8, t.pc)) = some (0x16, 3) := by
  decide

/-! ## The engine, the timer and the interrupts -/

theorem test_no_entry_V104_V107 :
    after { machine [(5, 0x0F), (6, 0x06)] 0 [0x01] with elig := false } (fun t => (t.status, t.pc)) =
      some (.halted, 1) ∧
    after { machine [(5, 1), (6, 1)] 0 [0x01] with elig := true, ie := false } (fun t => t.status) = some .halted := by
  decide

theorem test_entry_V105 :
    after (pending 0) (fun t => (t.is, t.sp, t.pc, t.ie)) = some (0x04, 0xEA, 0x40, false) := by decide

theorem test_tick_and_entry_V106 :
    after { pending 0 with time := given [second] } (fun t => (t.is, t.pc, t.tacc)) = some (0x06, 0, ⟨0, 1⟩) := by
  decide

theorem test_tick_without_mask_V108 :
    after { machine [] 0 [0x01] with time := given [second] } (fun t => (t.is, t.elig, t.status)) =
      some (1, true, .halted) := by decide

/-- R231: 1/2 s and then 3/4 s make one tick and leave 1/4 s; 5/2 s make one tick in this cycle, not two. -/
theorem test_timer_accumulates :
    ({ State.reset with tacc := ⟨1, 2⟩, time := given [⟨3, 4⟩] }.timerPoll.tacc,
      { State.reset with time := given [⟨5, 2⟩] }.timerPoll.tacc) = (⟨1, 4⟩, ⟨3, 2⟩) := by decide

theorem test_faults_V109_V123_V124_V125 :
    faultOf (step (pending 256)) = some (.pcNotStorable 256) ∧
    faultOf (step (machine [] 255 [0x02])) = some (.unknownOpcode 2) ∧
    faultOf (step (machine [] 256 [])) = some (.addressOutOfRange 256) ∧
    faultOf (step (machine [] 254 [0x82, 0])) = some (.addressOutOfRange 256) := by decide

theorem test_refusal_V127_V128 :
    refusalOf (step { machine [] 0 [0x00] with params := Params.default }) = some (.unconfirmedOpcode 0) ∧
    refusalOf (step { machine [] 255 [0x54] with params := Params.default }) = some (.unconfirmedOpcode 0x54) := by
  decide

/-! ## Witnesses: a state and operands that meet the hypotheses of each statement, clause by clause -/

/-! ### Encoding and decoding -/

theorem witness_DecodeOfEncodeIsTheInstruction :
    Params.admitting.wf ∧ Params.admitting.admits (Instr.st 7 0xFF).mnemonic = true ∧
    Params.default.wf ∧ Params.default.admits (Instr.ldi 0xFF 0xFF).mnemonic = true := by decide

theorem witness_DecodedBytesBeginWithTheEncoding :
    ∃ (i : Instr) (bs : List Byte), decode Params.default bs = .ok i ∧ bs = [0x82, 0xFF, 0xFF, 0x01] :=
  ⟨.ldi 0xFF 0xFF, _, rfl, rfl⟩

theorem witness_WidthIsTheOpcodesTopBitsPlusOne :
    Params.default.wf ∧ spInR4.wf ∧ (0xC0 : Byte).toNat / 64 = 3 ∧ (0xFF : Byte).toNat / 64 = 3 ∧
    (machine [] 255 [0x82]).pc ≤ 255 := by decide

/-- An instruction of each width, and a jump that is not taken, at the last address where it fits. -/
theorem witness_WidthIsTheOpcodesTopBitsPlusOne_in_a_step :
    (∃ t, (machine [] 255 [0x01]).fetches ∧ Decodes (machine [] 255 [0x01]) .hlt ∧
      ¬ Redirects (machine [] 255 [0x01]) .hlt ∧ step (machine [] 255 [0x01]) = .next t) ∧
    (∃ t, (machine [] 254 [0x55, 1]).fetches ∧ Decodes (machine [] 254 [0x55, 1]) (.jeq 1) ∧
      ¬ Redirects (machine [] 254 [0x55, 1]) (.jeq 1) ∧ step (machine [] 254 [0x55, 1]) = .next t) ∧
    ∃ t, (machine [] 253 [0x82, 0, 8]).fetches ∧ Decodes (machine [] 253 [0x82, 0, 8]) (.ldi 0 8) ∧
      ¬ Redirects (machine [] 253 [0x82, 0, 8]) (.ldi 0 8) ∧ step (machine [] 253 [0x82, 0, 8]) = .next t :=
  ⟨⟨_, by decide, rfl, id, rfl⟩, ⟨_, by decide, rfl, by unfold Redirects; decide, rfl⟩, _, by decide, rfl, id, rfl⟩

/-- Parameters that R8 rules out, where the opcode of HLT says three bytes: the width comes from the opcode byte, so
the machine moves on by three. Where the opcode of LDI says one byte, there are no operands to give it. -/
theorem test_width_comes_from_the_opcode_byte_alone :
    after { machine [] 0 [0x80, 0, 0] with
      params := { Params.default with opc := { OpcodeMap.ls8 with hlt := 0x80 } } } (fun t => t.pc) = some 3 ∧
    refusalOf (step { machine [] 0 [0x02, 0, 0] with
      params := { Params.default with opc := { OpcodeMap.ls8 with ldi := 0x02 } } }) =
      some (.tooFewOperands 0x02) := by decide

/-- The first and the last of the illegal bytes, at the last address. -/
theorem witness_IllegalOpcodesAreTheListed :
    ∀ op ∈ [0x02#8, 0xFF#8], (machine [] 255 [op]).fetches ∧ (machine [] 255 [op]).pc ≤ 255 ∧
      (machine [] 255 [op]).params.opc = OpcodeMap.ls8 ∧
      lookup OpcodeMap.ls8 ((machine [] 255 [op]).mem.get 255) = none := by decide

/-! ### The cycle -/

theorem witness_StepRunsTheDecodedInstruction :
    (machine [] 253 [0x82, 0, 8]).fetches ∧ Decodes (machine [] 253 [0x82, 0, 8]) (.ldi 0 8) := ⟨by decide, rfl⟩

theorem witness_StepRunsTheInstructionInMemory :
    (machine [] 253 [0x82, 0, 8]).fetches ∧ (machine [] 253 [0x82, 0, 8]).params.wf ∧
    (machine [] 253 [0x82, 0, 8]).params.admits (Instr.ldi 0 8).mnemonic = true ∧
    (machine [] 253 [0x82, 0, 8]).pc + 3 = 256 ∧
    BytesAtPc (machine [] 253 [0x82, 0, 8]) (encode (machine [] 253 [0x82, 0, 8]).params (.ldi 0 8)) :=
  ⟨by decide, by decide, by decide, by decide, by decide, by decide⟩

theorem witness_TerminalStatusIsFinal :
    ({ State.reset with status := .halted } : State).status ≠ .running ∧
    ({ State.reset with status := .refused 0 } : State).status ≠ .running := by decide

theorem witness_StepKeepsTheInvariant :
    ∃ t, (machine [] 0 [0x45, 0]).Inv ∧ step (machine [] 0 [0x45, 0]) = .next t := ⟨_, by decide, rfl⟩

theorem witness_NoInterruptWhileTheMaskIsZero :
    (machine [(6, 0xFF)] 0 []).params.wf ∧ (machine [(6, 0xFF)] 0 []).im = 0 := by decide

/-! ### Faults and refusals -/

theorem witness_OpcodeFetchPastTheTopFaults :
    (machine [] 256 []).fetches ∧ (machine [] 256 []).pc = 256 := by decide

/-- For a three-byte and a two-byte instruction, at the last address that is too high by one. -/
theorem witness_OperandFetchPastTheTopFaults :
    (machine [] 254 [0x82, 0]).fetches ∧ (machine [] 254 [0x82, 0]).params.wf ∧
    (machine [] 254 [0x82, 0]).params.admits .ldi = true ∧
    (machine [] 254 [0x82, 0]).mem.get 254 = (machine [] 254 [0x82, 0]).params.opc.value .ldi ∧
    256 < 254 + (Mnemonic.ldi.format.operandCount + 1) ∧
    (machine [] 255 [0x47]).mem.get 255 = (machine [] 255 [0x47]).params.opc.value .prn ∧
    256 < 255 + (Mnemonic.prn.format.operandCount + 1) := by decide

theorem witness_UnknownOpcodeEndsTheRun :
    (machine [] 255 [0x02]).fetches ∧ (machine [] 255 [0x02]).pc ≤ 255 ∧
    ∀ m, (machine [] 255 [0x02]).params.opc.value m ≠ (machine [] 255 [0x02]).mem.get 255 :=
  ⟨by decide, by decide, fun m => by cases m <;> decide⟩

theorem witness_UnconfirmedOpcodeIsRefusedUnlessAdmitted :
    let s := { machine [] 255 [0x54] with params := Params.default }
    s.fetches ∧ s.params.wf ∧ s.pc ≤ 255 ∧ Mnemonic.jmp.confirmed = false ∧
    s.mem.get s.pc = s.params.opc.value .jmp ∧ s.params.admitUnconfirmed = false := by decide

theorem witness_BadRegisterOperandFaults :
    (Instr.jeq 8).registerOperands.find? (fun b => decide (8 ≤ b.toNat)) = some 8 ∧
    (Instr.add 7 8).registerOperands.find? (fun b => decide (8 ≤ b.toNat)) = some 8 ∧
    (Instr.add 9 10).registerOperands.find? (fun b => decide (8 ≤ b.toNat)) = some 9 := by decide

theorem witness_PcNotStorableOnlyInTwoCases :
    (pending 256).interrupted 1 ∧ (pending 256).pc = 256 ∧ (machine [] 254 [0x50, 0]).pc = 254 ∧
    (machine [] 254 [0x50, 0]).Inv ∧ (pending 256).Inv ∧
    step (machine [] 254 [0x50, 0]) = .fault (.pcNotStorable 256) ∧
    step (pending 256) = .fault (.pcNotStorable 256) :=
  ⟨by decide, rfl, rfl, by decide, by decide, rfl, rfl⟩

theorem witness_FaultsGiveExitCodeOneAndAMessage : step (machine [] 256 []) = .fault (.addressOutOfRange 256) := rfl

/-! ### Memory and the stack -/

theorem witness_CanonicalMemoriesThatReadAlikeAreEqual :
    Memory.wf [(0, 1), (255, 2)] ∧ Memory.set (Memory.set [] 255 2) 0 1 = [(0, 1), (255, 2)] := by decide

/-- At SP = 0, where the push wraps. -/
theorem witness_PopUndoesPush :
    let s := machine [(7, 0)] 0 []
    let u := s.pushByte 9
    u.params = s.params ∧ u.sp = (s.pushByte 9).sp ∧
    u.mem.get (s.sp - 1).toNat = (s.pushByte 9).mem.get (s.sp - 1).toNat := by decide

/-- At the last address from which a call does not fault. -/
theorem witness_ReturnUndoesCall :
    (machine [] 253 []).pc ≤ 253 ∧
    ∃ t, exec (.call (operand 7)) (machine [] 253 []) = .next t ∧ t.params = t.params ∧ t.sp = 0xF3 :=
  ⟨by decide, _, rfl, rfl, rfl⟩

/-! ### The timer and the interrupts -/

/-- TACC + dt is exactly one second, which ticks, and 99/100 of one, which does not; with no input given the input is
free, and the times are proper all the same. -/
theorem witness_TimerPollTicksOncePerCycle :
    let s := { State.reset with tacc := ⟨1, 2⟩, time := given [⟨1, 2⟩] }
    let u := { State.reset with tacc := ⟨49, 100⟩, time := given [⟨1, 2⟩] }
    (TimesProper s ∧ s.time.inputs = (⟨1, 2⟩ : Seconds) :: [] ∧ 1 ≤ s.tacc.toRat + s.elapsed.toRat) ∧
    (TimesProper u ∧ u.tacc.toRat + u.elapsed.toRat < 1) ∧
    TimesProper State.reset ∧ State.reset.time.inputs = [] :=
  ⟨⟨⟨by decide, by decide⟩, rfl, by norm_num [Seconds.toRat, State.elapsed, TimeSource.first, given]⟩,
    ⟨⟨by decide, by decide⟩, by norm_num [Seconds.toRat, State.elapsed, TimeSource.first, given]⟩,
    ⟨by decide, by decide⟩, rfl⟩

/-- TACC at reset, and just under a second. -/
theorem witness_TimerPollTicksOncePerCycle_for_any_pattern :
    State.reset.tacc.wf ∧ State.reset.tacc.toRat < 1 ∧
    (⟨99, 100⟩ : Seconds).wf ∧ (⟨99, 100⟩ : Seconds).toRat < 1 :=
  ⟨by decide, by norm_num [Seconds.toRat, State.reset, State.resetWith], by decide, by norm_num [Seconds.toRat]⟩

theorem witness_TimerPollTicksOncePerCycle_in_a_step :
    ∃ t, ({ pending 0 with time := given [second] } : State).status = .running ∧
      step { pending 0 with time := given [second] } = .next t := ⟨_, rfl, rfl⟩

theorem witness_InterruptCheckFindsTheLowestLine :
    (pending 0).status = .running ∧ (pending 0).timerPoll.interruptCheck = some 1 ∧
    (State.reset.elig = false ∨ State.reset.ie = false) ∧ (pending 0).elig = true ∧ (pending 0).ie = true ∧
    (pending 0).interruptCheck = some 1 ∧
    { machine [(5, 0x80), (6, 0xC0)] 0 [] with elig := true }.interruptCheck = some 7 := by decide

theorem witness_TickEntersLineZeroInItsOwnCycle :
    let s := { machine [(5, 1)] 0 [] with time := given [second] }
    TimesProper s ∧ s.params.wf ∧ s.status = .running ∧ Ticks s ∧ s.im.getLsbD 0 = true ∧ s.ie = true :=
  ⟨⟨by decide, by decide⟩, by decide, rfl, by norm_num [Ticks, Seconds.toRat, State.elapsed, TimeSource.first,
    given, machine, State.reset, State.resetWith, State.setReg, second], by decide, rfl⟩

/-- At the highest program counter that can be saved, and with a stack pointer whose frame wraps. -/
theorem witness_InterruptEntrySavesTheFrame :
    (pending 255).interrupted 1 ∧ (pending 255).params.wf ∧ (pending 255).pc ≤ 255 ∧
    (pending 256).interrupted 1 ∧ (pending 256).pc = 256 ∧
    ((pending 0).setReg 7 5).interrupted 1 ∧ { pending 0 with params := spInR4 }.interrupted 1 ∧ spInR4.wf := by
  decide

/-- The state that the entry itself leaves meets the hypotheses on the state of the IRET. -/
theorem witness_IretUndoesInterruptEntry :
    ∃ e, step (pending 255) = .next e ∧ (pending 255).interrupted 1 ∧ e.params = (pending 255).params ∧
      e.sp = (pending 255).timerPoll.sp - 10 ∧
      ∀ k, 1 ≤ k → k ≤ 10 → e.mem.get ((pending 255).timerPoll.sp - BitVec.ofNat 8 k).toNat =
        e.mem.get ((pending 255).timerPoll.sp - BitVec.ofNat 8 k).toNat :=
  ⟨_, rfl, by decide, rfl, by decide, fun _ _ _ => rfl⟩

theorem witness_InterruptsDoNotNest :
    (∃ t, (pending 0).interrupted 1 ∧ step (pending 0) = .next t) ∧
    (let s := { pending 0 with ie := false, mem := [(0, 0x01)] }
     s.status = .running ∧ s.ie = false ∧ Decodes s .hlt) :=
  ⟨⟨_, by decide, rfl⟩, rfl, rfl, rfl⟩

theorem witness_OnlyIretSetsAndOnlyEntryClearsIe :
    (∃ s t, step s = .next t ∧ s.fetches ∧ Decodes s .iret ∧ s.ie = false ∧ t.ie = true) ∧
    ∃ s t, step s = .next t ∧ s.interrupted 1 ∧ s.ie = true ∧ t.ie = false :=
  ⟨⟨{ machine [] 0 [0x13] with ie := false }, _, rfl, by decide, rfl, rfl, rfl⟩,
    pending 0, _, rfl, by decide, rfl, rfl⟩

theorem witness_OnlyTickAndIntSetEligAndNothingClearsIt :
    (∃ s t, TimesProper s ∧ step s = .next t ∧ s.elig = true) ∧
    (∃ s t, TimesProper s ∧ step s = .next t ∧ s.elig = false ∧ t.elig = true ∧ s.time.inputs = [second]) ∧
    ∃ s t, TimesProper s ∧ step s = .next t ∧ s.elig = false ∧ t.elig = true ∧ s.time.inputs = [⟨0, 1⟩] :=
  ⟨⟨pending 0, _, ⟨by decide, by decide⟩, rfl, rfl⟩,
    ⟨{ machine [] 0 [0x01] with time := given [second] }, _, ⟨by decide, by decide⟩, rfl, rfl, rfl, rfl⟩,
    machine [] 0 [0x52, 0], _, ⟨by decide, by decide⟩, rfl, rfl, rfl, rfl⟩

/-! ### Who writes what -/

theorem witness_OnlyCmpAndIretWriteFlags :
    (∃ t, step (machine [] 0 [0xA7, 0, 1]) = .next t ∧ t.fl ≠ (machine [] 0 [0xA7, 0, 1]).fl) ∧
    ∃ t, step (withBytes (machine [] 0 [0x13]) 7 [3]) = .next t ∧ t.fl ≠ (machine [] 0 [0x13]).fl :=
  ⟨⟨_, rfl, by decide⟩, _, rfl, by decide⟩

theorem witness_OnlyPushesAndStoreWriteMemory :
    (∃ t, step (machine [] 0 [0x45, 7]) = .next t ∧ ¬ KeepsMemory (machine [] 0 [0x45, 7]) t) ∧
    ∃ t, step (pending 7) = .next t ∧ ¬ KeepsMemory (pending 7) t :=
  ⟨⟨_, rfl, fun h => absurd (h 0xF3) (by decide)⟩, _, rfl, fun h => absurd (h 0xF3) (by decide)⟩

theorem witness_NoInstructionTouchesTheTimer :
    (∃ t, exec (.ldi 7 0) { State.reset with tacc := ⟨1, 2⟩ } = .next t) ∧
    exec (.ldi 8 0) State.reset = .fault (.badRegisterIndex 8) := ⟨⟨_, rfl⟩, rfl⟩

theorem witness_OutputsAreAppendOnly :
    ∃ t, step (machine [(0, 72)] 0 [0x47, 0]) = .next t ∧ t.out ≠ (machine [(0, 72)] 0 [0x47, 0]).out :=
  ⟨_, rfl, by decide⟩

/-- The next opcode byte at the last address. -/
theorem witness_StoreIsSeenByTheNextFetch :
    let s := machine [(0, 255), (1, 0x01)] 252 [0x84, 0, 1]
    ∃ t, exec (.st (operand 0) (operand 1)) s = .next t ∧ (s.reg 0).toNat = t.pc := ⟨_, rfl, rfl⟩

/-! ### The instructions -/

/-- The hypothesis of `Advances` and of the fetch faults, under the parameters of the spec and others. -/
theorem witness_Advances : State.reset.params.wf ∧ Params.default.wf ∧ spInR4.wf := by decide

/-- The register checks at their boundary: `rA` is 8; `rA` is 7 and `rB` is 8. -/
theorem witness_register_checks :
    8 ≤ (8 : Byte).toNat ∧ (7 : Byte).toNat < 8 ∧ exec (.add 8 0) State.reset = .fault (.badRegisterIndex 8) ∧
    exec (.add 7 8) State.reset = .fault (.badRegisterIndex 8) ∧
    exec (.ldi 8 0) State.reset = .fault (.badRegisterIndex 8) := ⟨by decide, by decide, rfl, rfl, rfl⟩

theorem witness_DivQuotientOrHalt_ModRemainderOrReport :
    (machine [(1, 1)] 0 []).reg 1 ≠ 0 ∧ (machine [] 0 []).reg 1 = 0 := by decide

/-- The operands at the boundary of the three cases. -/
theorem witness_CmpSetsOneFlag :
    let s := machine [(0, 0x80), (1, 0x7F)] 0 []
    (s.reg 0).toNat = (s.reg 0).toNat ∧ (s.reg 1).toNat < (s.reg 0).toNat := by decide

theorem witness_PopReadsAtTheStackPointer : (0 : Reg) ≠ State.reset.params.spReg ∧ 7 = State.reset.params.spReg := by
  decide

theorem witness_CallPushesTheReturnAddress :
    (machine [] 254 []).pc = 254 ∧ (machine [] 253 []).pc ≤ 253 ∧
    after (machine [(1, 0x20)] 253 [0x50, 1]) (fun t => (t.mem.get 0xF3, t.pc)) =
      some (255, 0x20) := by decide

theorem witness_JumpsOnOneFlag :
    let s := { State.reset with fl := 0x02 }
    s.fl.getLsbD s.params.flE.val = false ∧ s.fl.getLsbD s.params.flG.val = true ∧
    s.fl.getLsbD s.params.flL.val = false ∧
    ({ s with fl := 0x05 } : State).fl.getLsbD s.params.flE.val = true ∧
    ({ s with fl := 0x05 } : State).fl.getLsbD s.params.flG.val = false ∧
    ({ s with fl := 0x05 } : State).fl.getLsbD s.params.flL.val = true := by decide

theorem witness_JumpsOnTwoFlagsInBothReadings :
    let s := { State.reset with fl := 0x04 }
    let u := { s with params := { s.params with condReading := .notLess } }
    s.params.condReading = .bits ∧ s.fl.getLsbD s.params.flL.val = true ∧ s.fl.getLsbD s.params.flE.val = false ∧
    u.params.condReading = .notLess ∧ u.fl = bit u.params.flL.val ∧ u.fl ≠ bit u.params.flG.val := by decide

theorem witness_ReadingsAgreeOnOneHotFlags :
    let s := { State.reset with fl := 0x01 }
    s.params.wf ∧ s.params.condReading = .bits ∧ s.fl = bit s.params.flE.val ∧
    ({ s with fl := 0x02 } : State).fl = bit s.params.flG.val ∧
    ({ s with fl := 0x04 } : State).fl = bit s.params.flL.val ∧ ({ s with fl := 0 } : State).fl = 0 := by decide

theorem witness_IntReplacesTheInterruptStatus :
    State.reset.params.intSetsElig = true ∧
    { State.reset with params := { Params.default with intSetsElig := false } }.params.intSetsElig = false := by
  decide

/-- With the stack pointer in R4 there are registers above it and below it. -/
theorem witness_IretPopsRegistersFlagsAndPc : spInR4.spReg < 7 ∧ (0 : Reg) < spInR4.spReg ∧ spInR4.wf := by decide

end Sys2Proof.Tests
end

namespace Sys2Proof.Machine

open Sys2Proof.Claims

/-! ## What an instruction can write (10_state.md)

`exec_frame` says once, for all 34 instructions, which of them writes what; the statements about every step are read
off it, through `step_next`. -/

/-- What executing `i` in `s` may have changed in `t`: the program counter goes to a byte or advances by the width
(R24, R95), and each other part of the state is as it was but for the instructions that write it. -/
structure ExecFrame (i : Instr) (s t : State) : Prop where
  pc : t.pc < 256 ∨ t.pc = s.pc + s.width i.mnemonic
  fl : t.fl = s.fl ∨ i = .iret ∨ ∃ a b, i = .cmp a b
  ie : t.ie = s.ie ∨ (i = .iret ∧ t.ie = true)
  elig : t.elig = s.elig ∨ ((∃ a, i = .int a) ∧ t.elig = (s.elig || s.params.intSetsElig))
  mem : t.mem = s.mem ∨
    ((∃ a, i = .push a ∨ i = .call a ∨ ∃ b, i = .st a b) ∧ ∃ a v : Byte, t.mem = s.mem.set a.toNat v)
  out : t.out = s.out ∨ ((∃ a, i = .prn a ∨ i = .pra a) ∧ s.out <+: t.out)
  msg : s.msg <+: t.msg
  tacc : t.tacc = s.tacc
  time : t.time = s.time
  params : t.params = s.params

section
variable {i : Instr} {s t : State}

/-- An instruction that writes at most registers, the program counter, the status and messages. -/
theorem ExecFrame.of_registers {x : Vector Byte 8} {pc : Nat} {status : Status} {msg : List Message}
    (hpc : pc < 256 ∨ pc = s.pc + s.width i.mnemonic) (hmsg : s.msg <+: msg) :
    ExecFrame i s { s with x := x, pc := pc, status := status, msg := msg } :=
  ⟨hpc, .inl rfl, .inl rfl, .inl rfl, .inl rfl, .inl rfl, hmsg, rfl, rfl, rfl⟩

/-- An instruction that writes registers or the status and advances. -/
theorem ExecFrame.of_advance {x : Vector Byte 8} {status : Status} :
    ExecFrame i s (State.advance { s with x := x, status := status } (s.width i.mnemonic)) :=
  .of_registers (.inr rfl) List.prefix_rfl

/-- An instruction that writes registers and jumps. -/
theorem ExecFrame.of_jumpTo {x : Vector Byte 8} {v : Byte} : ExecFrame i s (State.jumpTo { s with x := x } v) :=
  .of_registers (.inl v.isLt) List.prefix_rfl

/-- The conditional jumps, taken or not. -/
theorem ExecFrame.of_jumpIf {c : Bool} {rA : Byte} (h : jumpIf i.mnemonic c rA s = .next t) : ExecFrame i s t := by
  obtain ⟨a, _, ⟨_, rfl⟩ | ⟨_, rfl⟩⟩ := jumpIf_next h
  · exact .of_jumpTo
  · exact .of_advance

/-- A return from an interrupt writes FL and IE beside registers and the program counter (R201). -/
theorem ExecFrame.of_returnFromInterrupt : ExecFrame .iret s s.returnFromInterrupt := by
  obtain ⟨hie, hmem, helig, htacc, htime, hparams, _, hout, hmsg, hpc⟩ := s.returnFromInterrupt_frame
  exact ⟨.inl hpc, .inr (.inl rfl), .inr ⟨rfl, hie⟩, .inl helig, .inl hmem, .inl hout, by rw [hmsg], htacc, htime,
    hparams⟩

/-- Everything that executing an instruction can write. -/
theorem exec_frame (h : exec i s = .next t) : ExecFrame i s t := by
  cases i with
  | nop | hlt =>
    cases h
    exact .of_advance
  | ret =>
    cases h
    exact .of_jumpTo
  | iret =>
    obtain rfl : s.returnFromInterrupt = t := Host.Outcome.next.inj h
    exact .of_returnFromInterrupt
  | push rA =>
    obtain ⟨a, _, rfl⟩ := execPush_next h
    exact ⟨.inr rfl, .inl rfl, .inl rfl, .inl rfl, .inr ⟨⟨rA, .inl rfl⟩, _, _, State.mem_pushByte _ _⟩, .inl rfl,
      List.prefix_rfl, rfl, rfl, rfl⟩
  | pop rA =>
    obtain ⟨a, _, rfl⟩ := execPop_next h
    exact .of_advance
  | prn rA =>
    obtain ⟨a, _, rfl⟩ := execPrn_next h
    exact ⟨.inr rfl, .inl rfl, .inl rfl, .inl rfl, .inl rfl, .inr ⟨⟨rA, .inl rfl⟩, List.prefix_append _ _⟩,
      List.prefix_rfl, rfl, rfl, rfl⟩
  | pra rA =>
    obtain ⟨a, _, rfl⟩ := execPra_next h
    exact ⟨.inr rfl, .inl rfl, .inl rfl, .inl rfl, .inl rfl, .inr ⟨⟨rA, .inr rfl⟩, List.prefix_append _ _⟩,
      List.prefix_rfl, rfl, rfl, rfl⟩
  | call rA =>
    obtain ⟨a, _, _, rfl⟩ := execCall_next h
    exact ⟨.inl (BitVec.isLt _), .inl rfl, .inl rfl, .inl rfl,
      .inr ⟨⟨rA, .inr (.inl rfl)⟩, _, _, State.mem_pushByte _ _⟩, .inl rfl, List.prefix_rfl, rfl, rfl, rfl⟩
  | int rA =>
    obtain ⟨a, _, rfl⟩ := execInt_next h
    exact ⟨.inr rfl, .inl rfl, .inl rfl, .inr ⟨⟨rA, rfl⟩, rfl⟩, .inl rfl, .inl rfl, List.prefix_rfl, rfl, rfl, rfl⟩
  | jmp rA =>
    obtain ⟨a, _, rfl⟩ := execJmp_next h
    exact .of_jumpTo
  | jeq | jne | jgt | jlt | jle | jge => exact .of_jumpIf h
  | inc | dec | not =>
    obtain ⟨a, _, rfl⟩ := aluUnary_next h
    exact .of_advance
  | ldi rA imm =>
    obtain ⟨a, _, rfl⟩ := execLdi_next h
    exact .of_advance
  | ld rA rB =>
    obtain ⟨a, b, _, _, rfl⟩ := execLd_next h
    exact .of_advance
  | st rA rB =>
    obtain ⟨a, b, _, _, rfl⟩ := execSt_next h
    exact ⟨.inr rfl, .inl rfl, .inl rfl, .inl rfl, .inr ⟨⟨rA, .inr (.inr ⟨rB, rfl⟩)⟩, _, _, rfl⟩, .inl rfl,
      List.prefix_rfl, rfl, rfl, rfl⟩
  | add | sub | mul | and | or | xor | shl | shr =>
    obtain ⟨a, b, _, _, rfl⟩ := aluBinary_next h
    exact .of_advance
  | div =>
    obtain ⟨a, b, _, _, ⟨_, rfl⟩ | ⟨_, rfl⟩⟩ := execDiv_next h
    · exact .of_registers (.inr rfl) (List.prefix_append _ _)
    · exact .of_advance
  | mod =>
    obtain ⟨a, b, _, _, ⟨_, rfl⟩ | ⟨_, rfl⟩⟩ := execMod_next h
    · exact .of_registers (.inr rfl) (List.prefix_append _ _)
    · exact .of_advance
  | cmp rA rB =>
    obtain ⟨a, b, _, _, rfl⟩ := execCmp_next h
    exact ⟨.inr rfl, .inr (.inr ⟨rA, rB, rfl⟩), .inl rfl, .inl rfl, .inl rfl, .inl rfl, List.prefix_rfl, rfl, rfl, rfl⟩

/-- An instruction writes memory by `Memory.set` at a byte address, if at all, so the canonical form stays. -/
theorem ExecFrame.wf_mem (h : ExecFrame i s t) (hs : s.mem.wf) : t.mem.wf := by
  rcases h.mem with hm | ⟨_, a, v, hm⟩
  · rw [hm]; exact hs
  · rw [hm]; exact Memory.wf_set hs a.isLt v

end

/-! ## The invariant (R22, R24, R32, R8) -/

section
variable {i : Instr} {s t : State}

/-- The bytes of an instruction that decodes are all in memory, so its advance stays within 256 (R24, R94, R95). -/
theorem pc_add_width_le (h : Decodes s i) : s.pc + s.width i.mnemonic ≤ 256 := by
  obtain ⟨_, rest, hf, hlen, _⟩ := decode_ok h
  by_cases hpc : s.pc ≤ 255
  · rw [State.fetch_eq s hpc] at hf
    obtain ⟨hop, hrest⟩ := List.cons.inj hf
    have hl := congrArg List.length hrest
    simp only [List.length_map, List.length_range'] at hl
    simp only [State.width, widthOf]
    omega
  · rw [State.fetch_eq_nil s (by omega)] at hf
    cases hf

/-- The tick takes a second from a time that reaches it, and the sum of proper fractions is one (R231). -/
theorem wf_tacc_timerPoll (htacc : s.tacc.wf) (hin : ∀ u ∈ s.time.inputs, u.wf) : s.timerPoll.tacc.wf := by
  have hsum := Seconds.wf_add htacc (State.elapsed_wf hin)
  rcases s.timerPoll_cases with ⟨hp, h⟩ | ⟨_, h⟩
  · rw [h]; exact Seconds.wf_lessPeriod hsum hp
  · rw [h]; exact hsum

/-- The timer poll, which every cycle begins with, keeps the invariant. -/
theorem State.Inv.timerPoll (h : s.Inv) : s.timerPoll.Inv := by
  obtain ⟨hmem, hpc, htacc, hin, hp⟩ := h
  refine ⟨by rwa [State.mem_timerPoll], by rwa [State.pc_timerPoll], wf_tacc_timerPoll htacc hin, ?_,
    by rwa [State.params_timerPoll]⟩
  rw [State.time_timerPoll]
  exact fun u hu => hin u (List.mem_of_mem_tail hu)

/-- An interrupt entry keeps the invariant: it pushes bytes and goes to a byte. -/
theorem State.Inv.enterInterrupt {l : Line} (h : s.Inv) (ht : s.enterInterrupt l = .ok t) : t.Inv := by
  obtain ⟨hmem, _, htacc, hin, hp⟩ := h
  obtain ⟨_, _, rfl⟩ := State.enterInterrupt_ok ht
  refine ⟨?_, ?_, ?_, ?_, ?_⟩
  · rw [State.mem_jumpTo]; exact State.wf_entered s l hmem
  · rw [State.pc_jumpTo]; exact (BitVec.isLt _).le
  · rwa [State.tacc_jumpTo, State.tacc_entered]
  · rwa [State.time_jumpTo, State.time_entered]
  · rwa [State.params_jumpTo, State.params_entered]

/-- An instruction whose advance stays within 256 keeps the invariant. -/
theorem State.Inv.exec (h : s.Inv) (hw : s.pc + s.width i.mnemonic ≤ 256) (ht : exec i s = .next t) : t.Inv := by
  obtain ⟨hmem, _, htacc, hin, hp⟩ := h
  have hf := exec_frame ht
  refine ⟨hf.wf_mem hmem, ?_, by rwa [hf.tacc], by rwa [hf.time], by rwa [hf.params]⟩
  rcases hf.pc with hpc | hpc <;> omega

end

/-- Settles O9: each of the three things a step can do keeps the invariant, from the state after the timer poll. -/
theorem stepKeepsTheInvariant : Obligations.StepKeepsTheInvariant := by
  intro s t hs h
  rcases step_next h with ⟨_, rfl⟩ | ⟨l, _, ht⟩ | ⟨_, i, hd, ht⟩
  · exact hs
  · exact hs.timerPoll.enterInterrupt ht
  · refine hs.timerPoll.exec ?_ ht
    rw [State.pc_timerPoll, State.width, State.params_timerPoll]
    exact pc_add_width_le hd

/-! ## Eligibility (R31) -/

section
variable {s t : State}

/-- The timer poll sets ELIG when the sum reaches the period, and never clears it (R231). -/
theorem elig_timerPoll (s : State) :
    s.timerPoll.elig = (s.elig || Seconds.reachesPeriod (Seconds.add s.tacc s.elapsed)) := by
  rcases s.timerPoll_cases with ⟨hp, h⟩ | ⟨hp, h⟩ <;> rw [h, hp] <;> simp

/-- The model's comparison with the period is the tick of R231. -/
theorem reachesPeriod_add_iff_ticks (h : TimesProper s) :
    Seconds.reachesPeriod (Seconds.add s.tacc s.elapsed) = true ↔ Ticks s := by
  obtain ⟨htacc, hin⟩ := h
  have hdt := State.elapsed_wf hin
  rw [Seconds.reachesPeriod_iff (Seconds.wf_add htacc hdt), Seconds.toRat_add htacc hdt, Ticks]

/-- What a step can do to ELIG: nothing in a terminal status; else what the timer poll does and, if it runs INT, what
INT does. -/
theorem elig_step (h : step s = .next t) :
    t.elig = s.elig ∨ t.elig = s.timerPoll.elig ∨
      ((s.fetches ∧ ∃ a, Decodes s (.int a)) ∧ t.elig = (s.timerPoll.elig || s.params.intSetsElig)) := by
  rcases step_next h with ⟨_, rfl⟩ | ⟨l, _, ht⟩ | ⟨hf, i, hd, ht⟩
  · exact .inl rfl
  · obtain ⟨_, _, rfl⟩ := State.enterInterrupt_ok ht
    rw [State.elig_jumpTo, State.elig_entered]
    exact .inr (.inl rfl)
  · rcases (exec_frame ht).elig with he | ⟨⟨a, rfl⟩, he⟩
    · exact .inr (.inl he)
    · rw [State.params_timerPoll] at he
      exact .inr (.inr ⟨⟨hf, a, hd⟩, he⟩)

end

/-- Settles O32: ELIG after a step is an "or" of ELIG before with the tick and with the latch of INT. -/
theorem onlyTickAndIntSetEligAndNothingClearsIt : Obligations.OnlyTickAndIntSetEligAndNothingClearsIt := by
  intro s t hs h
  have htick := reachesPeriod_add_iff_ticks hs
  rcases elig_step h with he | he | ⟨hint, he⟩
  · rw [he]
    exact ⟨id, fun h0 h1 => absurd h1 (by simp [h0])⟩
  · rw [he, elig_timerPoll]
    refine ⟨fun h1 => by simp [h1], fun h0 h1 => .inl (htick.mp ?_)⟩
    rwa [h0, Bool.false_or] at h1
  · rw [he, elig_timerPoll]
    refine ⟨fun h1 => by simp [h1], fun h0 h1 => ?_⟩
    rw [h0, Bool.false_or, Bool.or_eq_true] at h1
    exact h1.imp htick.mp fun hset => ⟨hset, hint⟩

/-! ## Flags and outputs (R27, R36, R37) -/

/-- Settles O33: an interrupt entry only pushes FL, and of the instructions CMP and IRET write it. -/
theorem onlyCmpAndIretWriteFlags : Obligations.OnlyCmpAndIretWriteFlags := by
  intro s t h hne
  rcases step_next h with ⟨_, rfl⟩ | ⟨l, _, ht⟩ | ⟨hf, i, hd, ht⟩
  · exact absurd rfl hne
  · obtain ⟨_, _, rfl⟩ := State.enterInterrupt_ok ht
    exact absurd (by simp) hne
  · rcases (exec_frame ht).fl with he | rfl | ⟨a, b, rfl⟩
    · exact absurd (he.trans (State.fl_timerPoll s)) hne
    · exact ⟨hf, .inl hd⟩
    · exact ⟨hf, .inr ⟨a, b, hd⟩⟩

/-- Settles O36: an interrupt entry writes neither stream, and an instruction only appends. -/
theorem outputsAreAppendOnly : Obligations.OutputsAreAppendOnly := by
  intro s t h
  rcases step_next h with ⟨_, rfl⟩ | ⟨l, _, ht⟩ | ⟨hf, i, hd, ht⟩
  · exact ⟨List.prefix_rfl, List.prefix_rfl, absurd rfl⟩
  · obtain ⟨_, _, rfl⟩ := State.enterInterrupt_ok ht
    simp
  · have hfr := exec_frame ht
    have hmsg := hfr.msg
    have hout := hfr.out
    rw [State.msg_timerPoll] at hmsg
    rw [State.out_timerPoll] at hout
    rcases hout with he | ⟨⟨a, ha⟩, hpre⟩
    · exact ⟨he ▸ List.prefix_rfl, hmsg, absurd he⟩
    · refine ⟨hpre, hmsg, fun _ => ⟨hf, a, ?_⟩⟩
      rcases ha with rfl | rfl
      · exact .inl hd
      · exact .inr hd

/-! ## The timer (R32, R244) -/

/-- The same outcome with other contents of the timer in the next state, if there is one. -/
def withTimerOutcome (tacc : Seconds) (time : TimeSource) :
    Host.Outcome State Fault Refusal → Host.Outcome State Fault Refusal
  | .next t => .next (withTimer t tacc time)
  | .fault f => .fault f
  | .refused r => .refused r

section
variable {s : State} {tacc : Seconds} {time : TimeSource} {rA rB : Byte}

theorem reg_withTimer (r : Reg) : (withTimer s tacc time).reg r = s.reg r := rfl

/-- The operand check of one register goes on with any timer as its continuation does. -/
theorem withRegister_withTimer {k k' : Reg → Host.Outcome State Fault Refusal}
    (h : ∀ a, k' a = withTimerOutcome tacc time (k a)) :
    withRegister rA k' = withTimerOutcome tacc time (withRegister rA k) := by
  by_cases hA : rA.toNat < 8
  · rw [withRegister_of_lt hA, withRegister_of_lt hA, h]
  · rw [withRegister_of_ge (by omega), withRegister_of_ge (by omega)]; rfl

/-- The operand check of two registers goes on with any timer as its continuation does. -/
theorem withRegisters_withTimer {k k' : Reg → Reg → Host.Outcome State Fault Refusal}
    (h : ∀ a b, k' a b = withTimerOutcome tacc time (k a b)) :
    withRegisters rA rB k' = withTimerOutcome tacc time (withRegisters rA rB k) :=
  withRegister_withTimer fun a => withRegister_withTimer (h a)

/-- Popping the registers does not touch the timer. -/
theorem restoreRegisters_withTimer :
    (withTimer s tacc time).restoreRegisters = withTimer s.restoreRegisters tacc time :=
  List.foldl_hom (fun u => withTimer u tacc time) fun _ _ => rfl

/-- The return from an interrupt does not touch the timer. -/
theorem returnFromInterrupt_withTimer :
    (withTimer s tacc time).returnFromInterrupt = withTimer s.returnFromInterrupt tacc time := by
  simp only [State.returnFromInterrupt, restoreRegisters_withTimer]
  generalize s.restoreRegisters = u
  rfl

/-- A jump whose condition does not read the timer is the same with any timer. -/
theorem jumpIf_withTimer {m : Mnemonic} {c : Bool} :
    jumpIf m c rA (withTimer s tacc time) = withTimerOutcome tacc time (jumpIf m c rA s) :=
  withRegister_withTimer fun _ => by cases c <;> rfl

/-- CALL pushes the same return address, or fails to, whatever the timer holds. -/
theorem execCall_withTimer :
    execCall rA (withTimer s tacc time) = withTimerOutcome tacc time (execCall rA s) := by
  refine withRegister_withTimer fun a => ?_
  have hpc : (withTimer s tacc time).pc = s.pc := rfl
  rw [State.push_eq, State.push_eq, hpc]
  by_cases h : s.pc + 2 < 256
  · rw [if_pos h, if_pos h]; rfl
  · rw [if_neg h, if_neg h]; rfl

/-- Executing an instruction commutes with a change of the timer: it neither reads nor writes it. -/
theorem exec_withTimer (i : Instr) :
    exec i (withTimer s tacc time) = withTimerOutcome tacc time (exec i s) := by
  cases i with
  | nop | hlt | ret => rfl
  | iret => exact congrArg Host.Outcome.next returnFromInterrupt_withTimer
  | call rA =>
    show execCall rA (withTimer s tacc time) = withTimerOutcome tacc time (execCall rA s)
    exact execCall_withTimer
  | push | pop | prn | pra | int | jmp | inc | dec | not | ldi => exact withRegister_withTimer fun _ => rfl
  | jeq | jne | jgt | jlt | jle | jge => exact jumpIf_withTimer
  | ld | st | add | sub | mul | cmp | and | or | xor | shl | shr => exact withRegisters_withTimer fun _ _ => rfl
  | div | mod =>
    refine withRegisters_withTimer fun a b => ?_
    rw [reg_withTimer]
    split_ifs <;> rfl

end

/-- Settles O35: `exec_withTimer` is the noninterference, `exec_frame` the frame. -/
theorem noInstructionTouchesTheTimer : Obligations.NoInstructionTouchesTheTimer := by
  intro i s tacc time
  refine ⟨fun t h => ?_, fun f h => ?_⟩
  · have hf := exec_frame h
    exact ⟨hf.tacc, hf.time, hf.params, by rw [exec_withTimer, h]; rfl⟩
  · rw [exec_withTimer, h]; rfl

/-! ## Faults (R38, R98, R220) -/

/-- A cycle whose step faults ends as the raised fault leaves it (R98). -/
theorem cycle_of_fault {s : State} {f : Fault} (h : step s = .fault f) : cycle s = s.raise f := by
  rw [cycle, h]; rfl

/-- Settles O19: the exit codes and the table of R220 are the definitions' own; the state after a fault is that of
`State.raise`. -/
theorem faultsGiveExitCodeOneAndAMessage : Obligations.FaultsGiveExitCodeOneAndAMessage := by
  refine ⟨fun _ => rfl, fun _ _ => rfl, fun s f h => ?_, fun _ => ⟨rfl, rfl⟩, fun _ => ⟨rfl, rfl⟩,
    fun _ => ⟨rfl, rfl⟩, fun _ => ⟨rfl, rfl⟩⟩
  rw [cycle_of_fault h]
  exact ⟨rfl, rfl, rfl, rfl⟩

end Sys2Proof.Machine

namespace Sys2Proof.Machine

open Sys2Proof.Claims

/-! ## Operand bytes that name registers (R74) -/

section
variable {a b : Reg}

@[simp] theorem toNat_operand (r : Reg) : (operand r).toNat = r.val := by
  rw [operand, BitVec.toNat_ofNat, Nat.mod_eq_of_lt (by omega)]

/-- The operand check passes the byte of a register on as that register. -/
theorem withRegister_operand (k : Reg → Host.Outcome State Fault Refusal) : withRegister (operand a) k = k a := by
  have h : (operand a).toNat < 8 := by rw [toNat_operand]; exact a.isLt
  rw [withRegister_of_lt h]
  exact congrArg k (Fin.ext (toNat_operand a))

/-- The operand check passes the bytes of two registers on as those registers. -/
theorem withRegisters_operand (k : Reg → Reg → Host.Outcome State Fault Refusal) :
    withRegisters (operand a) (operand b) k = k a b := by
  rw [withRegisters, withRegister_operand, withRegister_operand]

end

/-! ## Memory access (R52, R53) -/

section
variable (s : State) {a v : Nat}

theorem State.memRead_of_lt (h : a < 256) : s.memRead a = .ok (s.mem.get a) := if_pos h

theorem State.memRead_of_ge (h : 256 ≤ a) : s.memRead a = .error (.addressOutOfRange a) := if_neg (by omega)

theorem State.memWrite_of_lt (ha : a < 256) (hv : v < 256) :
    s.memWrite a v = .ok { s with mem := s.mem.set a (BitVec.ofNat 8 v) } := by
  rw [State.memWrite, if_pos ha, if_pos hv]

theorem State.memWrite_of_ge (h : 256 ≤ a) : s.memWrite a v = .error (.addressOutOfRange a) := if_neg (by omega)

theorem State.memWrite_of_value_ge (ha : a < 256) (hv : 256 ≤ v) : s.memWrite a v = .error (.pcNotStorable v) := by
  rw [State.memWrite, if_pos ha, if_neg (by omega)]

end

/-- Settles O20: the two branches of `State.memRead`. -/
theorem memReadFaultsFrom256 : Obligations.MemReadFaultsFrom256 :=
  fun s _ => ⟨fun h => s.memRead_of_lt (by omega), s.memRead_of_ge⟩

/-- Settles O21: the written cell and the others by the read-after-write law `Memory.get_set`, the faults by the
branches of `State.memWrite`. -/
theorem memWriteSetsOneCell : Obligations.MemWriteSetsOneCell := by
  intro s a v
  refine ⟨fun ha hv => ?_, s.memWrite_of_ge, ?_⟩
  · refine ⟨_, s.memWrite_of_lt (by omega) (by omega), ?_, fun b hb => Memory.get_set_of_ne _ hb _, rfl⟩
    rw [Memory.get_set_same, BitVec.toNat_ofNat, Nat.mod_eq_of_lt (by omega)]
  · rintro ha rfl
    exact s.memWrite_of_value_ge (by omega) le_rfl

/-! ## The canonical form of memory (R50, log entry 10) -/

section
variable {m n : Memory} {a : Nat} {v : Byte}

/-- In a canonical memory a listed cell is what its address reads as: the addresses rise, so no earlier cell hides
it. -/
theorem Memory.get_of_mem (h : m.wf) (hc : (a, v) ∈ m) : m.get a = v := by
  induction m with
  | nil => cases hc
  | cons c m ih =>
    obtain ⟨k, w⟩ := c
    obtain ⟨hsorted, hcells⟩ := h
    obtain ⟨hlt, hrest⟩ := List.pairwise_cons.mp hsorted
    rcases List.mem_cons.mp hc with he | hc
    · obtain ⟨rfl, rfl⟩ := Prod.mk.inj he
      exact if_pos rfl
    · have hne : k ≠ a := (hlt (a, v) hc).ne
      rw [Memory.get, if_neg hne]
      exact ih ⟨hrest, fun c hc => hcells c (List.mem_cons_of_mem _ hc)⟩ hc

/-- An address that does not read as an unwritten cell is listed, with the byte it reads as. -/
theorem Memory.mem_of_get_ne (h : m.get a ≠ Config.unlistedByte) : (a, m.get a) ∈ m := by
  induction m with
  | nil => exact absurd rfl h
  | cons c m ih =>
    obtain ⟨k, w⟩ := c
    rw [Memory.get] at h ⊢
    by_cases hk : k = a
    · rw [if_pos hk, hk]
      exact List.mem_cons_self
    · rw [if_neg hk] at h ⊢
      exact List.mem_cons_of_mem _ (ih h)

/-- The cells of a canonical memory are those of its reads that differ from an unwritten cell's. -/
theorem Memory.mem_iff_get (h : m.wf) : (a, v) ∈ m ↔ a < 256 ∧ m.get a = v ∧ v ≠ Config.unlistedByte := by
  constructor
  · intro hc
    obtain ⟨ha, hv⟩ := h.2 _ hc
    exact ⟨ha, Memory.get_of_mem h hc, hv⟩
  · rintro ⟨_, rfl, hv⟩
    exact Memory.mem_of_get_ne hv

/-- Two canonical memories that list the same cells are equal. -/
theorem Memory.eq_of_mem_iff (hm : m.wf) (hn : n.wf) (h : ∀ c, c ∈ m ↔ c ∈ n) : m = n := by
  have : Std.Asymm fun c d : Host.Cell => c.1 < d.1 := ⟨fun _ _ => lt_asymm⟩
  exact hm.1.eq_of_mem_iff hn.1 h

end

/-- Settles O22: memories that read alike list the same cells, and the addresses rise, so the lists are equal. -/
theorem canonicalMemoriesThatReadAlikeAreEqual : Obligations.CanonicalMemoriesThatReadAlikeAreEqual := by
  intro m n hm hn h
  refine Memory.eq_of_mem_iff hm hn fun ⟨a, v⟩ => ?_
  rw [Memory.mem_iff_get hm, Memory.mem_iff_get hn]
  exact and_congr_right fun ha => by rw [h a ha]

/-! ## Which steps write memory, and the fetch after a store (R54, R64) -/

/-- Settles O34: `exec_frame` names the instructions that write memory; the timer poll does not. -/
theorem onlyPushesAndStoreWriteMemory : Obligations.OnlyPushesAndStoreWriteMemory := by
  intro s t h hne
  rcases step_next h with ⟨_, rfl⟩ | ⟨l, hl, _⟩ | ⟨hf, i, hd, ht⟩
  · exact absurd (fun _ => rfl) hne
  · exact .inl ⟨l, hl⟩
  · rcases (exec_frame ht).mem with he | ⟨⟨a, hi⟩, _⟩
    · have hkeeps : KeepsMemory s t := fun a => by rw [he, State.mem_timerPoll]
      exact absurd hkeeps hne
    · refine .inr ⟨hf, a, ?_⟩
      rcases hi with rfl | rfl | ⟨b, rfl⟩
      · exact .inl hd
      · exact .inr (.inl hd)
      · exact .inr (.inr ⟨b, hd⟩)

/-- ST with the bytes of two registers stores and advances (R214). -/
theorem exec_st_operand (s : State) (a b : Reg) :
    exec (.st (operand a) (operand b)) s = .next ((s.storeByte (s.reg a) (s.reg b)).advance (s.width .st)) :=
  withRegisters_operand _

/-- The first byte fetched is the cell at the program counter, if it is in memory (R91). -/
theorem State.head?_fetch (s : State) (h : s.pc ≤ 255) : s.fetch.head? = some (s.mem.get s.pc) := by
  rw [State.fetch_eq s h, List.head?_cons]

/-- Settles O37: the store's address is a byte, so the program counter that equals it is in memory, and the fetch
reads the cell just written. -/
theorem storeIsSeenByTheNextFetch : Obligations.StoreIsSeenByTheNextFetch := by
  intro s t a b h hpc
  rw [exec_st_operand] at h
  have hle : t.pc ≤ 255 := by omega
  have hmem : t.mem = s.mem.set (s.reg a).toNat (s.reg b) := by cases h; rfl
  rw [State.head?_fetch t hle, hmem, ← hpc, Memory.get_set_same]

end Sys2Proof.Machine

namespace Sys2Proof

variable {p : Params} {i : Instr} {op : Byte}

/-! ## The operand count in the opcode byte (R70, R76) -/

/-- Under the constraints of R8 the count in a mnemonic's opcode byte is that of its operand format. -/
theorem operandCountOf_value (h : p.wf) (m : Mnemonic) :
    operandCountOf (p.opc.value m) = m.format.operandCount := by
  obtain ⟨_, _, _, _, _, _, hcount, _, _⟩ := h
  exact hcount m m.mem_all

/-- The bits 7:6 of an opcode byte, as a number. -/
theorem operandCountOf_eq (op : Byte) : operandCountOf op = op.toNat / 64 := by
  rw [operandCountOf, BitVec.toNat_ushiftRight, Nat.shiftRight_eq_div_pow]

theorem Format.operandCount_le_two (f : Format) : f.operandCount ≤ 2 := by
  cases f <;> decide

theorem length_encode (p : Params) (i : Instr) : (encode p i).length = i.mnemonic.format.operandCount + 1 := by
  rw [encode, List.length_cons, i.length_operandBytes]

/-! ## What decoding answers (R73, R77, R93) -/

/-- Decoding finds the row of the opcode byte, reads exactly the operand bytes, and puts them together again. -/
theorem decode_encode_append (hp : p.wf) (ha : p.admits i.mnemonic = true) (rest : List Byte) :
    decode p (encode p i ++ rest) = .ok i := by
  have hops : i.operandBytes.length = operandCountOf (p.opc.value i.mnemonic) := by
    rw [i.length_operandBytes, operandCountOf_value hp]
  simp only [encode, List.cons_append, decode, lookup_value hp, ha, readOperands_append hops, assemble_operandBytes,
    ↓reduceIte]

theorem decode_encode (hp : p.wf) (ha : p.admits i.mnemonic = true) : decode p (encode p i) = .ok i := by
  simpa using decode_encode_append hp ha []

theorem encode_prefix_of_decode {bs : List Byte} (h : decode p bs = .ok i) : encode p i <+: bs := by
  obtain ⟨_, rest, rfl, _, hops⟩ := decode_ok h
  exact List.cons_prefix_cons.mpr ⟨rfl, hops⟩

theorem decode_of_lookup_eq_none (h : lookup p.opc op = none) (rest : List Byte) :
    decode p (op :: rest) = .error (.unknownOpcode op) := by
  simp only [decode, h]

/-! ## The opcode bytes and the illegal bytes of a map (R76, R78) -/

section
variable {t : OpcodeMap}

/-- The opcode bytes of a map as numbers, in the order of the table of R76. -/
def OpcodeMap.bytes (t : OpcodeMap) : List Nat := Mnemonic.all.map fun m => (t.value m).toNat

/-- The bytes that have no row under a map, as numbers. -/
def OpcodeMap.illegal (t : OpcodeMap) : List Nat :=
  (List.range 256).filter fun n => (lookup t (BitVec.ofNat 8 n)).isNone

/-- A byte has no row exactly when it differs from every opcode byte (R77, R78). -/
theorem lookup_eq_none_iff_notMem_bytes : lookup t op = none ↔ op.toNat ∉ t.bytes := by
  simp only [lookup_eq_none, OpcodeMap.bytes, List.mem_map, Mnemonic.mem_all, true_and, BitVec.toNat_inj, not_exists]

theorem OpcodeMap.length_bytes (t : OpcodeMap) : t.bytes.length = 34 := rfl

theorem OpcodeMap.lt_of_mem_bytes {n : Nat} (h : n ∈ t.bytes) : n < 256 := by
  obtain ⟨m, _, rfl⟩ := List.mem_map.mp h
  exact (t.value m).isLt

theorem OpcodeMap.mem_illegal {n : Nat} : n ∈ t.illegal ↔ n < 256 ∧ n ∉ t.bytes := by
  rw [OpcodeMap.illegal, List.mem_filter, List.mem_range, Option.isNone_iff_eq_none, lookup_eq_none_iff_notMem_bytes,
    BitVec.toNat_ofNat]
  exact and_congr_right fun hn => by rw [Nat.mod_eq_of_lt hn]

/-- The illegal bytes and the opcode bytes, if these are distinct, are each byte once. -/
theorem OpcodeMap.illegal_append_bytes_perm (hd : t.bytes.Nodup) : (t.illegal ++ t.bytes).Perm (List.range 256) := by
  have hnodup : (t.illegal ++ t.bytes).Nodup :=
    (List.nodup_range.filter _).append hd fun n hn => (OpcodeMap.mem_illegal.mp hn).2
  refine (List.perm_ext_iff_of_nodup hnodup List.nodup_range).mpr fun n => ?_
  have hlt : n ∈ t.bytes → n < 256 := OpcodeMap.lt_of_mem_bytes
  rw [List.mem_append, OpcodeMap.mem_illegal, List.mem_range]
  tauto

/-- Distinct opcode bytes leave 256 - 34 bytes without a row (R78). -/
theorem OpcodeMap.length_illegal (hd : t.bytes.Nodup) : t.illegal.length = 222 := by
  have hlen := (OpcodeMap.illegal_append_bytes_perm hd).length_eq
  rw [List.length_append, List.length_range, OpcodeMap.length_bytes] at hlen
  omega

end

/-- The opcode bytes of the table of R76. -/
theorem bytes_ls8 : OpcodeMap.ls8.bytes =
    [0x00, 0x01, 0x11, 0x13, 0x45, 0x46, 0x47, 0x48, 0x50, 0x52, 0x54, 0x55, 0x56, 0x57, 0x58, 0x59, 0x5A, 0x65, 0x66,
      0x69, 0x82, 0x83, 0x84, 0xA0, 0xA1, 0xA2, 0xA3, 0xA4, 0xA7, 0xA8, 0xAA, 0xAB, 0xAC, 0xAD] := rfl

theorem nodup_bytes_ls8 : OpcodeMap.ls8.bytes.Nodup := by decide

/-! ## The obligations about decoding -/

/-- Settles O1: the round trip is `decode_encode_append`. -/
theorem decodeOfEncodeIsTheInstruction : Obligations.DecodeOfEncodeIsTheInstruction :=
  fun _ _ rest hp ha => decode_encode_append hp ha rest

/-- Settles O2: the opcode byte and the operand bytes that a decode has read are those of the encoding. -/
theorem decodedBytesBeginWithTheEncoding : Obligations.DecodedBytesBeginWithTheEncoding := by
  intro p i bs h
  obtain ⟨rest, hbs⟩ := encode_prefix_of_decode h
  exact ⟨rest, hbs.symm⟩

/-- Settles O3: each word is the encoding of its instruction, under parameters by which it may execute, so the round
trip decodes it. -/
theorem tableWordsDecode : Obligations.TableWordsDecode :=
  ⟨decode_encode (i := .hlt) Params.wf_default rfl, decode_encode (i := .ldi 3 200) Params.wf_default rfl,
    decode_encode (i := .sub 2 5) Params.wf_default rfl, decode_encode (i := .dec 6) Params.wf_default rfl,
    decode_encode (i := .call 7) Params.wf_default rfl, decode_encode (i := .jle 1) Params.wf_default rfl,
    decode_encode (i := .iret) Params.wf_default rfl, decode_encode (i := .st 1 2) Params.wf_admitting rfl⟩

end Sys2Proof

namespace Sys2Proof.Machine

open Sys2Proof.Claims

section
variable {i : Instr} {s t : State}

/-! ## The width of a step (R92, R95) -/

/-- The opcode byte of the instruction that decodes is the one in memory at the program counter (R91). -/
theorem opcode_of_decodes (h : Decodes s i) : s.params.opc.value i.mnemonic = s.mem.get s.pc := by
  obtain ⟨_, rest, hf, _, _⟩ := decode_ok h
  by_cases hpc : s.pc ≤ 255
  · rw [State.fetch_eq s hpc] at hf
    exact (List.cons.inj hf).1.symm
  · rw [State.fetch_eq_nil s (by omega)] at hf
    cases hf

/-- Whether an instruction redirects control flow depends on FL and the parameters alone (R178). -/
theorem redirects_congr (hfl : t.fl = s.fl) (hp : t.params = s.params) (i : Instr) :
    Redirects t i ↔ Redirects s i := by
  cases i with
  | jeq | jne => simp only [Redirects, State.condEqual, State.condNotEqual, State.flagE, hfl, hp]
  | jgt => simp only [Redirects, State.condGreater, State.flagG, hfl, hp]
  | jlt => simp only [Redirects, State.condLess, State.flagL, hfl, hp]
  | jle => simp only [Redirects, State.condLessEqual, State.flagL, State.flagE, hfl, hp]
  | jge => simp only [Redirects, State.condGreaterEqual, State.flagG, State.flagE, hfl, hp]
  | _ => rfl

/-- A conditional jump that is not taken advances (R179). -/
theorem pc_jumpIf_of_not_taken {m : Mnemonic} {c : Bool} {rA : Byte} (h : jumpIf m c rA s = .next t)
    (hc : ¬ c = true) : t.pc = s.pc + s.width m := by
  obtain ⟨a, _, ⟨htaken, _⟩ | ⟨_, rfl⟩⟩ := jumpIf_next h
  · exact absurd htaken hc
  · rfl

/-- An instruction that does not redirect control flow advances by the width (R95). -/
theorem pc_exec_of_not_redirects (h : exec i s = .next t) (hr : ¬ Redirects s i) :
    t.pc = s.pc + s.width i.mnemonic := by
  cases i with
  | call | ret | iret | jmp => exact absurd trivial hr
  | jeq | jne | jgt | jlt | jle | jge => exact pc_jumpIf_of_not_taken h hr
  | nop | hlt =>
    cases h
    rfl
  | push | pop | prn | pra | int | inc | dec | not | ldi =>
    obtain ⟨a, _, h⟩ := withRegister_next h
    cases h
    rfl
  | ld | st | add | sub | mul | cmp | and | or | xor | shl | shr =>
    obtain ⟨a, b, _, _, h⟩ := withRegisters_next h
    cases h
    rfl
  | div => obtain ⟨a, b, _, _, ⟨_, rfl⟩ | ⟨_, rfl⟩⟩ := execDiv_next h <;> rfl
  | mod => obtain ⟨a, b, _, _, ⟨_, rfl⟩ | ⟨_, rfl⟩⟩ := execMod_next h <;> rfl

/-- The step of a cycle that fetches an instruction executes it, on the state after the timer poll (R90). -/
theorem step_of_decodes (hf : s.fetches) (hd : Decodes s i) : step s = exec i s.timerPoll := by
  rw [step_of_fetches hf, runInstruction, State.params_timerPoll, State.fetch_timerPoll, hd]

/-- The step of a cycle that fetches bytes which do not decode is their rejection (R93, R94). -/
theorem step_of_decode_error {e : Reject} (hf : s.fetches) (hd : decode s.params s.fetch = .error e) :
    step s = rejection s.pc e := by
  rw [step_of_fetches hf, runInstruction, State.params_timerPoll, State.fetch_timerPoll, hd, State.pc_timerPoll]

theorem length_fetch (h : s.pc ≤ 255) :
    s.fetch.length = min (operandCountOf (s.mem.get s.pc) + 1) (256 - s.pc) := by
  rw [State.fetch_eq s h, List.length_cons, List.length_map, List.length_range']
  omega

/-- A step that runs an instruction which does not redirect control flow advances by the width that the opcode byte
in memory says (R92, R95). -/
theorem pc_step_of_not_redirects (hf : s.fetches) (hd : Decodes s i) (hr : ¬ Redirects s i) (h : step s = .next t) :
    t.pc = s.pc + widthOf (s.mem.get s.pc) := by
  rw [step_of_decodes hf hd] at h
  have hr' : ¬ Redirects s.timerPoll i := (redirects_congr s.fl_timerPoll s.params_timerPoll i).not.mpr hr
  rw [pc_exec_of_not_redirects h hr', State.pc_timerPoll, State.width, State.params_timerPoll, opcode_of_decodes hd]

end

/-- Settles O4: the count in the opcode byte is that of the format, at most two; the fetch and the advance read it
from the opcode byte in memory. -/
theorem widthIsTheOpcodesTopBitsPlusOne : Obligations.WidthIsTheOpcodesTopBitsPlusOne := by
  refine ⟨fun p hp => ⟨fun i => ?_, fun op hop => lookup_eq_none.mpr ?_⟩, fun s h => ?_, fun s t i hf hd hr h => ?_⟩
  · have hle := i.mnemonic.format.operandCount_le_two
    rw [length_encode, ← operandCountOf_eq, operandCountOf_value hp]
    omega
  · rintro m rfl
    have hle := m.format.operandCount_le_two
    rw [← operandCountOf_eq, operandCountOf_value hp] at hop
    omega
  · rw [length_fetch h, operandCountOf_eq]
  · rw [pc_step_of_not_redirects hf hd hr h, widthOf, operandCountOf_eq]

/-- Settles O5: a byte that differs from the 34 of the table is in the list; the lookup that finds no row is the
fault. -/
theorem illegalOpcodesAreTheListed : Obligations.IllegalOpcodesAreTheListed := by
  refine ⟨fun op => ?_, OpcodeMap.length_illegal nodup_bytes_ls8, fun s hf hpc hopc hl => ?_⟩
  · have hop := op.isLt
    rw [lookup_eq_none_iff_notMem_bytes, bytes_ls8]
    simp only [List.mem_cons, List.not_mem_nil, or_false]
    omega
  · have hd : decode s.params s.fetch = .error (.unknownOpcode (s.mem.get s.pc)) := by
      rw [State.fetch_eq s hpc]
      exact decode_of_lookup_eq_none (hopc ▸ hl) _
    exact step_of_decode_error hf hd

end Sys2Proof.Machine

namespace Sys2Proof

/-! ## Bytes that end before the operands do (R94) -/

/-- With an admitted opcode and fewer bytes after it than its bits 7:6 call for, the first operand byte that is not there
is the one missing. -/
theorem decode_of_missing_operand {p : Params} {m : Mnemonic} {rest : List Byte} (hp : p.wf)
    (ha : p.admits m = true) (hlen : rest.length < m.format.operandCount) :
    decode p (p.opc.value m :: rest) = .error (.missingOperand (rest.length + 1)) := by
  rw [← operandCountOf_value hp m] at hlen
  simp only [decode, lookup_value hp, ha, readOperands, hlen, ↓reduceIte]

end Sys2Proof

namespace Sys2Proof.Machine

open Sys2Proof.Claims

section
variable {i : Instr} {m : Mnemonic} {s : State}

/-! ## The fetch of a whole encoding, and of one that memory cuts off (R73, R91, R94) -/

/-- The fetch as one run of memory: the width of the opcode byte at the program counter, as far as memory goes. -/
theorem State.fetch_eq_map_range' (s : State) (h : s.pc ≤ 255) :
    s.fetch = (List.range' s.pc (min (widthOf (s.mem.get s.pc)) (256 - s.pc))).map s.mem.get := by
  have hlen : min (widthOf (s.mem.get s.pc)) (256 - s.pc) =
      min (operandCountOf (s.mem.get s.pc)) (255 - s.pc) + 1 := by
    rw [widthOf]
    omega
  rw [State.fetch_eq s h, hlen, List.range'_succ, List.map_cons]

/-- An encoding that lies in memory at the program counter is what the fetch reads, no more and no less: its opcode
byte says how long it is. -/
theorem fetch_eq_encode (hp : s.params.wf) (h : BytesAtPc s (encode s.params i)) :
    s.fetch = encode s.params i := by
  obtain ⟨hroom, hbytes⟩ := h
  have hlen := length_encode s.params i
  have hop : s.mem.get s.pc = s.params.opc.value i.mnemonic := hbytes 0 (by omega)
  have hwidth : min (widthOf (s.mem.get s.pc)) (256 - s.pc) = (encode s.params i).length := by
    rw [hop, widthOf, operandCountOf_value hp]
    omega
  rw [State.fetch_eq_map_range' s (by omega), hwidth]
  refine List.ext_getElem (by simp) fun k _ hk => ?_
  rw [List.getElem_map, List.getElem_range', one_mul, hbytes k hk]

/-- The encoding of an admitted instruction at the program counter decodes to it (R64, R73). -/
theorem decodes_of_bytesAtPc (hp : s.params.wf) (ha : s.params.admits i.mnemonic = true)
    (h : BytesAtPc s (encode s.params i)) : Decodes s i := by
  rw [Decodes, fetch_eq_encode hp h, decode_encode hp ha]

/-- When the operands of an admitted opcode reach past address 255, the byte at 256 is the one missing: `256 - pc`
bytes from the opcode on. -/
theorem decode_fetch_of_operands_past_top (hp : s.params.wf) (ha : s.params.admits m = true) (hpc : s.pc ≤ 255)
    (hop : s.mem.get s.pc = s.params.opc.value m) (hpast : 256 < s.pc + (m.format.operandCount + 1)) :
    decode s.params s.fetch = .error (.missingOperand (256 - s.pc)) := by
  have hshort : min (operandCountOf (s.mem.get s.pc)) (255 - s.pc) = 255 - s.pc := by
    rw [hop, operandCountOf_value hp]
    omega
  have hmissing : 255 - s.pc + 1 = 256 - s.pc := by omega
  rw [State.fetch_eq s hpc, hshort, hop, decode_of_missing_operand hp ha (by simp; omega), List.length_map,
    List.length_range', hmissing]

/-- Every instruction raises the fault of R94 at address 256. -/
theorem raisesFetchFaults (m : Mnemonic) : RaisesFetchFaults m := by
  intro s hf hp ha hpc hop hpast
  have haddr : s.pc + (256 - s.pc) = 256 := by omega
  rw [step_of_decode_error hf (decode_fetch_of_operands_past_top hp ha hpc hop hpast), rejection, haddr]

/-- At 256 and above there is no opcode byte to fetch (R91). -/
theorem step_of_pc_past_top (hf : s.fetches) (hpc : 256 ≤ s.pc) : step s = .fault (.addressOutOfRange s.pc) := by
  have hd : decode s.params s.fetch = .error .noOpcodeByte := by
    rw [State.fetch_eq_nil s hpc, decode]
  exact step_of_decode_error hf hd

/-! ## Steps and runs from a terminal status (R96) -/

/-- A step in a terminal status answers the same state (log entry 6). -/
theorem step_of_terminal (h : s.status ≠ .running) : step s = .next s := by
  cases hs : s.status with
  | running => exact absurd hs h
  | halted | faulted | refused => simp only [step, hs]

/-- A run goes on from the state that its first step answers. -/
theorem run_succ_of_step {M : Host.Core} {a b : M.State} (h : M.step a = .next b) (n : Nat) :
    M.run (n + 1) a = M.run n b := by
  simp only [Host.Core.run, h]

end

/-! ## The obligations about the engine -/

/-- Settles O7: the fetch reads the encoding, which decodes to the instruction. -/
theorem stepRunsTheInstructionInMemory : Obligations.StepRunsTheInstructionInMemory :=
  fun _ _ hf hp ha hbytes => step_of_decodes hf (decodes_of_bytesAtPc hp ha hbytes)

/-- Settles O14: the fetch stops at the top of memory, and the decoder names the byte at 256 as missing. -/
theorem operandFetchPastTheTopFaults : Obligations.OperandFetchPastTheTopFaults := raisesFetchFaults

/-- Settles O6: the timer poll changes neither the parameters nor what the fetch reads. -/
theorem stepRunsTheDecodedInstruction : Obligations.StepRunsTheDecodedInstruction :=
  fun _ _ hf hd => step_of_decodes hf hd

/-- Settles O8, by induction on the number of steps: each answers the state it started in. -/
theorem terminalStatusIsFinal : Obligations.TerminalStatusIsFinal := by
  intro s n hs
  induction n with
  | zero => rfl
  | succ n ih => exact (run_succ_of_step (M := Sys2Proof.core) (step_of_terminal hs) n).trans ih

/-- Settles O13: at 256 the fetch reads nothing. -/
theorem opcodeFetchPastTheTopFaults : Obligations.OpcodeFetchPastTheTopFaults := by
  intro s hf hpc
  rw [step_of_pc_past_top hf hpc.ge, hpc]

/-- Settles O23: the pop reads the cell that the push wrote, and the decrement of SP and its increment cancel, modulo
256. -/
theorem popUndoesPush : Obligations.PopUndoesPush := by
  intro s u v _ hsp hcell
  rw [State.sp_pushByte] at hsp
  rw [State.mem_pushByte, Memory.get_set_same] at hcell
  rw [State.pop_fst, State.sp_pop, hsp]
  exact ⟨hcell, BitVec.sub_add_cancel _ _⟩

end Sys2Proof.Machine

namespace Sys2Proof.Machine

open Sys2Proof.Claims

/-! ## What an instruction with one register operand shares with the others (R74, R91, R95) -/

section
variable {s t : State} {m : Mnemonic} {mk : Byte → Instr}
  {k : State → Reg → Host.Outcome State Fault Refusal}

/-- A meaning that checks its register operand first refuses the byte of 8 or more. -/
theorem checksRegister_of_withRegister (h : ∀ s rA, exec (mk rA) s = withRegister rA (k s)) : ChecksRegister mk :=
  fun s rA hrA => (h s rA).trans (withRegister_of_ge hrA _)

/-- An instruction with one register operand meets the fetch faults of them all, so its rule needs only its bytes and
the operand check. -/
theorem encodedWithRegister_of_withRegister {op : Byte} (hbytes : ∀ rA, encode Params.default (mk rA) = [op, rA])
    (h : ∀ s rA, exec (mk rA) s = withRegister rA (k s)) : EncodedWithRegister m mk op :=
  ⟨hbytes, raisesFetchFaults m, checksRegister_of_withRegister h⟩

/-- The generic advance, from a state whose program counter is still that of the instruction. -/
theorem advances_advance (h : t.pc = s.pc) :
    Advances (m.format.operandCount + 1) s (t.advance (s.width m)) := by
  intro hp
  rw [State.pc_advance, h, s.width_eq hp]

end

/-! ## The frames of a register write and of an output (R22, R36) -/

section
variable (s : State)

theorem keepsRegistersBut_setReg_advance (a : Reg) (v : Byte) (w : Nat) :
    KeepsRegistersBut [a] s ((s.setReg a v).advance w) := by
  intro r hr
  rw [State.reg_advance, s.reg_setReg_of_ne (List.ne_of_not_mem_cons hr)]

theorem keepsAllButRegisters_setReg_advance (a : Reg) (v : Byte) (w : Nat) :
    KeepsAllButRegisters s ((s.setReg a v).advance w) :=
  ⟨rfl, fun _ => rfl, ⟨rfl, rfl, rfl, rfl, rfl⟩, rfl, rfl, rfl⟩

/-- What an instruction that emits code points leaves as it was. -/
theorem emit_advance_frame (cs : List Byte) (w : Nat) :
    let t := (s.emit cs).advance w
    KeepsRegisters s t ∧ t.fl = s.fl ∧ KeepsMemory s t ∧ KeepsControl s t ∧ t.status = s.status ∧ t.msg = s.msg :=
  ⟨fun _ => rfl, rfl, fun _ => rfl, ⟨rfl, rfl, rfl, rfl, rfl⟩, rfl, rfl⟩

end

/-! ## Decimal digits (R112) -/

section
variable {d : Nat} {c : Byte}

theorem toNat_digitCode (h : d < 10) : (digitCode d).toNat = 48 + d := by
  rw [digitCode, BitVec.toNat_ofNat, Nat.mod_eq_of_lt (by omega)]

theorem digitCode_eq_zero_iff (h : d < 10) : digitCode d = 48#8 ↔ d = 0 := by
  rw [← BitVec.toNat_inj, toNat_digitCode h]
  exact Nat.add_eq_left

/-- One more digit: the value so far moves one place up. -/
theorem decimalValue_concat (ds : List Byte) (h : d < 10) :
    decimalValue (ds ++ [digitCode d]) = 10 * decimalValue ds + d := by
  rw [decimalValue, List.foldl_append, List.foldl_cons, List.foldl_nil, toNat_digitCode h, Nat.add_sub_cancel_left,
    decimalValue]

theorem decimalValue_digitCode (h : d < 10) : decimalValue [digitCode d] = d :=
  (decimalValue_concat [] h).trans (Nat.zero_add d)

/-- A byte below 10 has one digit, one below 100 has two, and any other has three, the first of them not 0. -/
theorem decimalDigits_cases (v : Byte) :
    (v.toNat < 10 ∧ decimalDigits v = [digitCode v.toNat]) ∨
    (10 ≤ v.toNat ∧ v.toNat < 100 ∧ decimalDigits v = [digitCode (v.toNat / 10)] ++ [digitCode (v.toNat % 10)]) ∨
    (100 ≤ v.toNat ∧ decimalDigits v =
      [digitCode (v.toNat / 100)] ++ [digitCode (v.toNat / 10 % 10)] ++ [digitCode (v.toNat % 10)]) := by
  by_cases h10 : v.toNat < 10
  · have hmod : v.toNat % 10 = v.toNat := Nat.mod_eq_of_lt h10
    exact .inl ⟨h10, by rw [decimalDigits, if_neg (by omega), if_neg (by omega), hmod]; rfl⟩
  · by_cases h100 : v.toNat < 100
    · have hmod : v.toNat / 10 % 10 = v.toNat / 10 := Nat.mod_eq_of_lt (by omega)
      exact .inr (.inl ⟨by omega, h100, by rw [decimalDigits, if_neg (by omega), if_pos (by omega), hmod]; rfl⟩)
    · exact .inr (.inr ⟨by omega, by rw [decimalDigits, if_pos (by omega), if_pos (by omega)]⟩)

theorem decimalDigits_ne_nil (v : Byte) : decimalDigits v ≠ [] := List.concat_ne_nil _ _

/-- Every code of a decimal is that of a digit. -/
theorem exists_digitCode_of_mem_decimalDigits {v : Byte} (h : c ∈ decimalDigits v) : ∃ d < 10, c = digitCode d := by
  have hv := v.isLt
  rcases decimalDigits_cases v with ⟨_, he⟩ | ⟨_, _, he⟩ | ⟨_, he⟩ <;>
    simp only [he, List.mem_append, List.mem_singleton] at h
  · exact ⟨_, by omega, h⟩
  · rcases h with h | h <;> exact ⟨_, by omega, h⟩
  · rcases h with (h | h) | h <;> exact ⟨_, by omega, h⟩

theorem toNat_mem_decimalDigits {v : Byte} (h : c ∈ decimalDigits v) : 48 ≤ c.toNat ∧ c.toNat ≤ 57 := by
  obtain ⟨d, hd, rfl⟩ := exists_digitCode_of_mem_decimalDigits h
  rw [toNat_digitCode hd]
  omega

/-- The digits of a byte stand for its value: the quotients and remainders by 10 put together again. -/
theorem decimalValue_decimalDigits (v : Byte) : decimalValue (decimalDigits v) = v.toNat := by
  have hv := v.isLt
  rcases decimalDigits_cases v with ⟨h, he⟩ | ⟨_, _, he⟩ | ⟨_, he⟩
  · rw [he, decimalValue_digitCode h]
  · rw [he, decimalValue_concat _ (by omega), decimalValue_digitCode (by omega)]
    omega
  · rw [he, decimalValue_concat _ (by omega), decimalValue_concat _ (by omega), decimalValue_digitCode (by omega)]
    omega

/-- Only the decimal of 0 begins with the digit 0. -/
theorem decimalDigits_eq_zero_of_head {v : Byte} (h : (decimalDigits v).head? = some 48#8) :
    decimalDigits v = [48#8] := by
  have hv := v.isLt
  rcases decimalDigits_cases v with ⟨_, he⟩ | ⟨h10, _, he⟩ | ⟨h100, he⟩ <;> rw [he] at h ⊢
  · exact congrArg ([·]) (Option.some.inj h)
  · have hzero := (digitCode_eq_zero_iff (by omega)).mp (Option.some.inj h)
    omega
  · have hzero := (digitCode_eq_zero_iff (by omega)).mp (Option.some.inj h)
    omega

end

/-! ## The obligations about halt, immediate load and console output -/

section
variable (s : State) (a : Reg)

/-- LDI with the byte of a register writes it and advances (R111). -/
theorem exec_ldi_operand (imm : Byte) :
    exec (.ldi (operand a) imm) s = .next ((s.setReg a imm).advance (s.width .ldi)) :=
  withRegister_operand _

/-- PRN with the byte of a register emits its decimal and a newline, and advances (R112). -/
theorem exec_prn_operand :
    exec (.prn (operand a)) s =
      .next ((s.emit (decimalDigits (s.reg a) ++ [newline])).advance (s.width .prn)) :=
  withRegister_operand _

/-- PRA with the byte of a register emits it and advances (R113). -/
theorem exec_pra_operand :
    exec (.pra (operand a)) s = .next ((s.emit [s.reg a]).advance (s.width .pra)) :=
  withRegister_operand _

end

/-- Settles O40: the digits are those of `decimalDigits`, which are digit codes, have the register's value and begin
with 0 only for the value 0. -/
theorem prnPrintsTheDecimal : Obligations.PrnPrintsTheDecimal := by
  refine ⟨encodedWithRegister_of_withRegister (fun _ => rfl) fun _ _ => rfl, fun s a => ?_⟩
  exact ⟨_, decimalDigits (s.reg a), exec_prn_operand s a, (List.append_assoc _ _ _).symm, decimalDigits_ne_nil _,
    fun _ => toNat_mem_decimalDigits, decimalValue_decimalDigits _, decimalDigits_eq_zero_of_head,
    advances_advance rfl, emit_advance_frame s _ _⟩

/-- Settles O38: HLT sets the status and advances, in every state. -/
theorem hltHaltsAndAdvances : Obligations.HltHaltsAndAdvances := by
  refine ⟨rfl, fun s => ⟨s.halt.advance (s.width .hlt), rfl, State.status_halt s, rfl, advances_advance s.pc_halt, ?_⟩⟩
  exact ⟨fun _ => rfl, rfl, fun _ => rfl, ⟨rfl, rfl, rfl, rfl, rfl⟩, rfl, rfl⟩

/-- Settles O39: the operand check passes the register on, and the immediate is written as it is. -/
theorem ldiLoadsTheImmediate : Obligations.LdiLoadsTheImmediate := by
  refine ⟨fun _ _ => rfl, raisesFetchFaults .ldi, fun _ _ _ hrA => withRegister_of_ge hrA _, fun s a imm => ?_⟩
  exact ⟨_, exec_ldi_operand s a imm, State.reg_setReg_same s a imm, advances_advance rfl,
    keepsRegistersBut_setReg_advance s a imm _, keepsAllButRegisters_setReg_advance s a imm _⟩

/-- Settles O41: PRA emits the register's byte, whatever it is. -/
theorem praPrintsTheCodePoint : Obligations.PraPrintsTheCodePoint := by
  refine ⟨encodedWithRegister_of_withRegister (fun _ => rfl) fun _ _ => rfl, fun s a => ?_⟩
  exact ⟨_, exec_pra_operand s a, rfl, advances_advance rfl, emit_advance_frame s _ _⟩

end Sys2Proof.Machine

namespace Sys2Proof.Machine

open Sys2Proof.Claims

/-! ## What an instruction with two register operands shares with the others (R74, R91) -/

section
variable {m : Mnemonic} {mk : Byte → Byte → Instr} {op : Byte}
  {k : State → Reg → Reg → Host.Outcome State Fault Refusal}

/-- A meaning that checks `rA`, then `rB`, refuses the first of them that is 8 or more. -/
theorem checksRegisters_of_withRegisters (h : ∀ s rA rB, exec (mk rA rB) s = withRegisters rA rB (k s)) :
    ChecksRegisters mk :=
  fun s rA rB => ⟨fun hA => (h s rA rB).trans (withRegisters_of_ge_left hA _),
    fun hA hB => (h s rA rB).trans (withRegisters_of_ge_right hA hB _)⟩

/-- An instruction with two register operands meets the fetch faults of them all, so its rule needs only its bytes and
the operand check. -/
theorem encodedWithRegisters_of_withRegisters (hbytes : ∀ rA rB, encode Params.default (mk rA rB) = [op, rA, rB])
    (h : ∀ s rA rB, exec (mk rA rB) s = withRegisters rA rB (k s)) : EncodedWithRegisters m mk op :=
  ⟨hbytes, raisesFetchFaults m, checksRegisters_of_withRegisters h⟩

end

/-! ## The ALU's functions as arithmetic on the values of bytes (R145) -/

section
variable (a b : Byte)

theorem toNat_aluAdd : (aluAdd a b).toNat = (a.toNat + b.toNat) % 256 := BitVec.toNat_ofNat _ _

theorem toNat_aluSub : (aluSub a b).toNat = (((a.toNat : Int) - (b.toNat : Int)) % 256).toNat := BitVec.toNat_ofInt _

theorem toNat_aluMul : (aluMul a b).toNat = (a.toNat * b.toNat) % 256 := BitVec.toNat_ofNat _ _

theorem toNat_aluInc : (aluInc a).toNat = (a.toNat + 1) % 256 := BitVec.toNat_ofNat _ _

theorem toNat_aluDec : (aluDec a).toNat = (((a.toNat : Int) - 1) % 256).toNat := BitVec.toNat_ofInt _

theorem toNat_aluNot : (aluNot a).toNat = 255 - a.toNat := BitVec.toNat_not

theorem toNat_aluAnd : (aluAnd a b).toNat = a.toNat &&& b.toNat := BitVec.toNat_and _ _

theorem toNat_aluOr : (aluOr a b).toNat = a.toNat ||| b.toNat := BitVec.toNat_or _ _

theorem toNat_aluXor : (aluXor a b).toNat = a.toNat ^^^ b.toNat := BitVec.toNat_xor _ _

theorem toNat_aluShl : (aluShl a b).toNat = (a.toNat * 2 ^ b.toNat) % 256 := by
  rw [aluShl, BitVec.toNat_ofNat, Nat.shiftLeft_eq]

/-- A number that is at most the value of a byte is not reduced. -/
theorem toNat_ofNat_of_le {n : Nat} (h : n ≤ a.toNat) : (BitVec.ofNat 8 n).toNat = n :=
  (BitVec.toNat_ofNat _ _).trans (Nat.mod_eq_of_lt (h.trans_lt a.isLt))

theorem toNat_aluShr : (aluShr a b).toNat = a.toNat / 2 ^ b.toNat := by
  rw [aluShr, Nat.shiftRight_eq_div_pow, toNat_ofNat_of_le a (Nat.div_le_self _ _)]

theorem toNat_aluDiv : (aluDiv a b).toNat = a.toNat / b.toNat := toNat_ofNat_of_le a (Nat.div_le_self _ _)

theorem toNat_aluMod : (aluMod a b).toNat = a.toNat % b.toNat := toNat_ofNat_of_le a (Nat.mod_le _ _)

end

/-! ## The flags of a compare (R143) -/

section
variable {p : Params} {a b : Byte}

theorem compareFlags_of_eq (h : a.toNat = b.toNat) : compareFlags p a b = bit p.flE.val := if_pos h

theorem compareFlags_of_gt (h : b.toNat < a.toNat) : compareFlags p a b = bit p.flG.val :=
  (if_neg h.ne').trans (if_pos h)

theorem compareFlags_of_lt (h : a.toNat < b.toNat) : compareFlags p a b = bit p.flL.val :=
  (if_neg h.ne).trans (if_neg h.not_gt)

end

/-! ## A register write with the advance, and the two shapes of an ALU instruction over it (R144) -/

section
variable {m : Mnemonic} {op : Byte}

/-- What an instruction with `n` operand bytes does when it writes a register and advances: the value, the new program
counter and the frame. -/
theorem setReg_advance_effect {n : Nat} (hm : m.format.operandCount = n) (s : State) (a : Reg) (v : Byte) :
    let t := (s.setReg a v).advance (s.width m)
    (t.reg a).toNat = v.toNat ∧ Advances (n + 1) s t ∧ KeepsRegistersBut [a] s t ∧ KeepsAllButRegisters s t := by
  subst hm
  refine ⟨?_, advances_advance rfl, keepsRegistersBut_setReg_advance s a v _,
    keepsAllButRegisters_setReg_advance s a v _⟩
  rw [State.reg_advance, State.reg_setReg_same]

/-- The rule of a two-operand ALU instruction is that of the function it computes. -/
theorem aluBinaryRule_of_aluBinary {mk : Byte → Byte → Instr} {g : Byte → Byte → Byte} {f : Nat → Nat → Nat}
    (hm : m.format.operandCount = 2) (hbytes : ∀ rA rB, encode Params.default (mk rA rB) = [op, rA, rB])
    (hexec : ∀ s rA rB, exec (mk rA rB) s = aluBinary m g rA rB s)
    (hg : ∀ x y, (g x y).toNat = f x.toNat y.toNat) : AluBinaryRule m mk op f := by
  refine ⟨encodedWithRegisters_of_withRegisters hbytes hexec, fun s a b => ?_⟩
  obtain ⟨hvalue, hframe⟩ := setReg_advance_effect hm s a (g (s.reg a) (s.reg b))
  exact ⟨_, (hexec s _ _).trans (withRegisters_operand _), hvalue.trans (hg _ _), hframe⟩

/-- The rule of a one-operand ALU instruction is that of the function it computes. -/
theorem aluUnaryRule_of_aluUnary {mk : Byte → Instr} {g : Byte → Byte} {f : Nat → Nat}
    (hm : m.format.operandCount = 1) (hbytes : ∀ rA, encode Params.default (mk rA) = [op, rA])
    (hexec : ∀ s rA, exec (mk rA) s = aluUnary m g rA s)
    (hg : ∀ x, (g x).toNat = f x.toNat) : AluUnaryRule m mk op f := by
  refine ⟨encodedWithRegister_of_withRegister hbytes hexec, fun s a => ?_⟩
  obtain ⟨hvalue, hframe⟩ := setReg_advance_effect hm s a (g (s.reg a))
  exact ⟨_, (hexec s _).trans (withRegister_operand _), hvalue.trans (hg _), hframe⟩

end

/-! ## DIV, MOD and CMP with the bytes of two registers (R133, R134, R143) -/

section
variable (s : State) (a b : Reg)

theorem exec_div_operand_of_zero (h : s.reg b = 0#8) :
    exec (.div (operand a) (operand b)) s = .next ((s.report .divByZero).halt.advance (s.width .div)) :=
  (withRegisters_operand _).trans (if_pos h)

theorem exec_div_operand_of_ne_zero (h : s.reg b ≠ 0#8) :
    exec (.div (operand a) (operand b)) s =
      .next ((s.setReg a (aluDiv (s.reg a) (s.reg b))).advance (s.width .div)) :=
  (withRegisters_operand _).trans (if_neg h)

theorem exec_mod_operand_of_zero (h : s.reg b = 0#8) :
    exec (.mod (operand a) (operand b)) s = .next ((s.report .modByZero).advance (s.width .mod)) :=
  (withRegisters_operand _).trans (if_pos h)

theorem exec_mod_operand_of_ne_zero (h : s.reg b ≠ 0#8) :
    exec (.mod (operand a) (operand b)) s =
      .next ((s.setReg a (aluMod (s.reg a) (s.reg b))).advance (s.width .mod)) :=
  (withRegisters_operand _).trans (if_neg h)

theorem exec_cmp_operand :
    exec (.cmp (operand a) (operand b)) s =
      .next ((s.setFl (compareFlags s.params (s.reg a) (s.reg b))).advance (s.width .cmp)) :=
  withRegisters_operand _

end

/-! ## The obligations about the ALU -/

/-- Settles O42: the three share the shape of a two-operand ALU instruction, and each function reduces modulo 256. -/
theorem addSubMulReduceModulo256 : Obligations.AddSubMulReduceModulo256 :=
  ⟨aluBinaryRule_of_aluBinary rfl (fun _ _ => rfl) (fun _ _ _ => rfl) toNat_aluAdd,
    aluBinaryRule_of_aluBinary rfl (fun _ _ => rfl) (fun _ _ _ => rfl) toNat_aluSub,
    aluBinaryRule_of_aluBinary rfl (fun _ _ => rfl) (fun _ _ _ => rfl) toNat_aluMul⟩

/-- Settles O43: the three share the shape of a one-operand ALU instruction. -/
theorem incDecNotOfOneRegister : Obligations.IncDecNotOfOneRegister :=
  ⟨aluUnaryRule_of_aluUnary rfl (fun _ => rfl) (fun _ _ => rfl) toNat_aluInc,
    aluUnaryRule_of_aluUnary rfl (fun _ => rfl) (fun _ _ => rfl) toNat_aluDec,
    aluUnaryRule_of_aluUnary rfl (fun _ => rfl) (fun _ _ => rfl) toNat_aluNot⟩

/-- Settles O44: the bitwise operations on bytes are those on their values. -/
theorem andOrXorAreBitwise : Obligations.AndOrXorAreBitwise :=
  ⟨aluBinaryRule_of_aluBinary rfl (fun _ _ => rfl) (fun _ _ _ => rfl) toNat_aluAnd,
    aluBinaryRule_of_aluBinary rfl (fun _ _ => rfl) (fun _ _ _ => rfl) toNat_aluOr,
    aluBinaryRule_of_aluBinary rfl (fun _ _ => rfl) (fun _ _ _ => rfl) toNat_aluXor⟩

/-- Settles O45: a shift by the whole byte multiplies or divides by the power of two, and only the product can leave
0..255. -/
theorem shiftsTakeTheWholeAmount : Obligations.ShiftsTakeTheWholeAmount :=
  ⟨aluBinaryRule_of_aluBinary rfl (fun _ _ => rfl) (fun _ _ _ => rfl) toNat_aluShl,
    aluBinaryRule_of_aluBinary rfl (fun _ _ => rfl) (fun _ _ _ => rfl) toNat_aluShr⟩

/-- Settles O46: with a divisor that is not 0 the quotient is at most the dividend, so it fits a byte; with a zero
divisor no register is written. -/
theorem divQuotientOrHalt : Obligations.DivQuotientOrHalt := by
  refine ⟨encodedWithRegisters_of_withRegisters (fun _ _ => rfl) fun _ _ _ => rfl, fun s a b => ?_⟩
  by_cases hb : s.reg b = 0#8
  · exact ⟨_, exec_div_operand_of_zero s a b hb, advances_advance rfl, fun hne => absurd hb hne,
      fun _ => ⟨fun _ => rfl, rfl, rfl, rfl⟩, rfl, fun _ => rfl, ⟨rfl, rfl, rfl, rfl, rfl⟩, rfl⟩
  · obtain ⟨hvalue, hpc, hregs, hfl, hmem, hcontrol, hstatus, hout, hmsg⟩ :=
      setReg_advance_effect (m := .div) rfl s a (aluDiv (s.reg a) (s.reg b))
    have hquotient := hvalue.trans (toNat_aluDiv _ _)
    exact ⟨_, exec_div_operand_of_ne_zero s a b hb, hpc, fun _ => ⟨hquotient, hregs, hstatus, hmsg⟩,
      fun hzero => absurd hzero hb, hfl, hmem, hcontrol, hout⟩

/-- Settles O47: as for DIV, but the zero divisor only reports. -/
theorem modRemainderOrReport : Obligations.ModRemainderOrReport := by
  refine ⟨encodedWithRegisters_of_withRegisters (fun _ _ => rfl) fun _ _ _ => rfl, fun s a b => ?_⟩
  by_cases hb : s.reg b = 0#8
  · exact ⟨_, exec_mod_operand_of_zero s a b hb, advances_advance rfl, fun hne => absurd hb hne,
      fun _ => ⟨fun _ => rfl, rfl⟩, rfl, fun _ => rfl, ⟨rfl, rfl, rfl, rfl, rfl⟩, rfl, rfl⟩
  · obtain ⟨hvalue, hpc, hregs, hfl, hmem, hcontrol, hstatus, hout, hmsg⟩ :=
      setReg_advance_effect (m := .mod) rfl s a (aluMod (s.reg a) (s.reg b))
    have hremainder := hvalue.trans (toNat_aluMod _ _)
    exact ⟨_, exec_mod_operand_of_ne_zero s a b hb, hpc, fun _ => ⟨hremainder, hregs, hmsg⟩,
      fun hzero => absurd hzero hb, hfl, hmem, hcontrol, hstatus, hout⟩

/-- Settles O48: the three cases of the order are those of `compareFlags`, which is all that CMP writes. -/
theorem cmpSetsOneFlag : Obligations.CmpSetsOneFlag := by
  refine ⟨encodedWithRegisters_of_withRegisters (fun _ _ => rfl) fun _ _ _ => rfl, fun s a b => ?_⟩
  exact ⟨_, exec_cmp_operand s a b, compareFlags_of_eq, compareFlags_of_gt, compareFlags_of_lt, advances_advance rfl,
    fun _ => rfl, fun _ => rfl, ⟨rfl, rfl, rfl, rfl, rfl⟩, rfl, rfl, rfl⟩

end Sys2Proof.Machine

namespace Sys2Proof.Machine

open Sys2Proof.Claims

/-! ## What a push and a pop leave as they were (R100, R101) -/

section
variable (s : State)

theorem keepsRegistersBut_pushByte (v : Byte) : KeepsRegistersBut [s.params.spReg] s (s.pushByte v) := by
  intro r hr
  rw [State.reg_pushByte, if_neg (List.ne_of_not_mem_cons hr)]

theorem keepsMemoryBut_pushByte (v : Byte) : KeepsMemoryBut (s.sp - 1#8).toNat s (s.pushByte v) := by
  intro b hb
  rw [State.mem_pushByte]
  exact Memory.get_set_of_ne _ hb v

/-- The cell that a push writes reads as the byte pushed. -/
theorem get_pushByte_same (v : Byte) : (s.pushByte v).mem.get (s.sp - 1#8).toNat = v := by
  rw [State.mem_pushByte]
  exact Memory.get_set_same _ _ v

theorem keepsRegistersBut_pop : KeepsRegistersBut [s.params.spReg] s s.pop.2 := by
  intro r hr
  rw [State.reg_pop, if_neg (List.ne_of_not_mem_cons hr)]

/-- The pop into a register leaves all but that register and SP. -/
theorem keepsRegistersBut_pop_setReg (a : Reg) (v : Byte) :
    KeepsRegistersBut [a, s.params.spReg] s (s.pop.2.setReg a v) := by
  intro r hr
  obtain ⟨hra, hrsp⟩ := List.ne_and_not_mem_of_not_mem_cons hr
  rw [State.reg_setReg_of_ne _ hra, keepsRegistersBut_pop s r hrsp]

/-- A write to another register leaves SP. -/
theorem State.sp_setReg_of_ne {i : Reg} (h : i ≠ s.params.spReg) (v : Byte) : (s.setReg i v).sp = s.sp :=
  State.reg_setReg_of_ne _ h.symm v

end

/-! ## The stack instructions with the byte of a register (R172 to R175) -/

section
variable (s : State) (a : Reg)

/-- PUSH with the byte of a register pushes its value and advances (R172). -/
theorem exec_push_operand :
    exec (.push (operand a)) s = .next ((s.pushByte (s.reg a)).advance (s.width .push)) :=
  withRegister_operand _

/-- POP with the byte of a register writes the popped byte to it and advances (R173). -/
theorem exec_pop_operand :
    exec (.pop (operand a)) s = .next ((s.pop.2.setReg a s.pop.1).advance (s.width .pop)) :=
  withRegister_operand _

/-- The state after the push of a CALL: the return address, as a byte, is on the stack (R174). -/
def State.pushReturn (s : State) : State := s.pushByte (BitVec.ofNat 8 (s.pc + 2))

/-- CALL with a return address that a byte holds pushes it and jumps to the register, read after the push (R174). -/
theorem exec_call_operand (h : s.pc + 2 < 256) :
    exec (.call (operand a)) s = .next (s.pushReturn.jumpTo (s.pushReturn.reg a)) := by
  refine (withRegister_operand _).trans ?_
  rw [State.push_eq, if_pos h]
  rfl

/-- CALL with a return address that no byte holds raises the fault of the push (R174, R224). -/
theorem exec_call_operand_of_ge (h : 256 ≤ s.pc + 2) :
    exec (.call (operand a)) s = .fault (.pcNotStorable (s.pc + 2)) := by
  refine (withRegister_operand _).trans ?_
  rw [State.push_eq, if_neg (by omega)]

/-- RET jumps to the popped byte (R175). -/
theorem exec_ret : exec .ret s = .next (s.pop.2.jumpTo s.pop.1) := rfl

theorem toNat_returnAddress (h : s.pc + 2 < 256) : (BitVec.ofNat 8 (s.pc + 2)).toNat = s.pc + 2 := by
  rw [BitVec.toNat_ofNat, Nat.mod_eq_of_lt (by omega)]

end

/-! ## The conditions of JGE and JLE, by the reading (R178) -/

section
variable {s : State}

theorem condGreaterEqual_of_bits (h : s.params.condReading = .bits) :
    s.condGreaterEqual = (s.flagG || s.flagE) := by
  simp only [State.condGreaterEqual, h]

theorem condGreaterEqual_of_notLess (h : s.params.condReading = .notLess) :
    s.condGreaterEqual = (s.fl != bit s.params.flL.val) := by
  simp only [State.condGreaterEqual, h]
  rfl

theorem condLessEqual_of_bits (h : s.params.condReading = .bits) :
    s.condLessEqual = (s.flagL || s.flagE) := by
  simp only [State.condLessEqual, h]

theorem condLessEqual_of_notLess (h : s.params.condReading = .notLess) :
    s.condLessEqual = (s.fl != bit s.params.flG.val) := by
  simp only [State.condLessEqual, h]
  rfl

/-- The condition of JGE, as a statement about FL under both readings. -/
theorem condGreaterEqual_iff (s : State) :
    s.condGreaterEqual = true ↔
      (s.params.condReading = .bits ∧
        (s.fl.getLsbD s.params.flG.val = true ∨ s.fl.getLsbD s.params.flE.val = true)) ∨
      (s.params.condReading = .notLess ∧ s.fl ≠ bit s.params.flL.val) := by
  cases h : s.params.condReading with
  | bits => simp [condGreaterEqual_of_bits h, State.flagG, State.flagE]
  | notLess => simp [condGreaterEqual_of_notLess h]

/-- The condition of JLE, as a statement about FL under both readings. -/
theorem condLessEqual_iff (s : State) :
    s.condLessEqual = true ↔
      (s.params.condReading = .bits ∧
        (s.fl.getLsbD s.params.flL.val = true ∨ s.fl.getLsbD s.params.flE.val = true)) ∨
      (s.params.condReading = .notLess ∧ s.fl ≠ bit s.params.flG.val) := by
  cases h : s.params.condReading with
  | bits => simp [condLessEqual_of_bits h, State.flagL, State.flagE]
  | notLess => simp [condLessEqual_of_notLess h]

/-- JNE reads the bit of JEQ the other way round. -/
theorem condNotEqual_iff (s : State) : s.condNotEqual = true ↔ s.fl.getLsbD s.params.flE.val = false := by
  rw [State.condNotEqual, State.flagE, Bool.not_eq_true']

end

/-! ## One-hot values of FL (R143, R178) -/

/-- Of the flag bits, the value `1 << i` has only bit `i`. -/
theorem getLsbD_bit (i j : Fin 3) : (bit i.val).getLsbD j.val = decide (i = j) := by
  revert i j; decide

theorem bit_bne_bit (i j : Fin 3) : (bit i.val != bit j.val) = !decide (i = j) := by
  revert i j; decide

theorem zero_bne_bit (i : Fin 3) : (0#8 != bit i.val) = true := by
  revert i; decide

/-- On a value with one flag set, "the third flag is not it" says that one of the two others is: for JGE the third is
L, for JLE it is G. -/
theorem oneHot_or_eq_bne {e g l : Fin 3} {f : Byte} (hel : e ≠ l) (hgl : g ≠ l)
    (hf : f = bit e.val ∨ f = bit g.val ∨ f = bit l.val) :
    (f.getLsbD g.val || f.getLsbD e.val) = (f != bit l.val) := by
  rcases hf with rfl | rfl | rfl <;> rw [getLsbD_bit, getLsbD_bit, bit_bne_bit]
  · simp [hel]
  · simp [hgl]
  · simp [hel.symm, hgl.symm]

/-! ## The conditional jumps as one rule (R179) -/

theorem keepsAllButPc_withPc (s : State) (pc : Nat) : KeepsAllButPc s { s with pc := pc } :=
  ⟨fun _ => rfl, rfl, fun _ => rfl, ⟨rfl, rfl, rfl, rfl, rfl⟩, rfl, rfl, rfl⟩

/-- The rule of a conditional jump is that of the condition it tests. -/
theorem jumpRule_of_jumpIf {m : Mnemonic} {mk : Byte → Instr} {op : Byte} {cond : State → Bool}
    {taken : State → Prop} (hm : m.format.operandCount = 1) (hbytes : ∀ rA, encode Params.default (mk rA) = [op, rA])
    (hexec : ∀ s rA, exec (mk rA) s = jumpIf m (cond s) rA s) (hcond : ∀ s, cond s = true ↔ taken s) :
    JumpRule m mk op taken := by
  refine ⟨encodedWithRegister_of_withRegister hbytes hexec, fun s a => ?_⟩
  have hnext := (hexec s _).trans (withRegister_operand (a := a) _)
  have hadvance : Advances 2 s (s.advance (s.width m)) := by
    have h := advances_advance (s := s) (m := m) rfl
    rwa [hm] at h
  by_cases hc : cond s = true
  · rw [if_pos hc] at hnext
    exact ⟨_, hnext, fun _ => rfl, fun hn => absurd ((hcond s).mp hc) hn, keepsAllButPc_withPc s _⟩
  · rw [if_neg hc] at hnext
    exact ⟨_, hnext, fun ht => absurd ((hcond s).mpr ht) hc, fun _ => hadvance, keepsAllButPc_withPc s _⟩

/-! ## The obligations about stack and control transfer -/

/-- Settles O24: the RET pops the return address that the CALL pushed, so `popUndoesPush` gives both `pc` and SP. -/
theorem returnUndoesCall : Obligations.ReturnUndoesCall := by
  intro s u a hpc
  refine ⟨_, exec_call_operand s a (by omega), fun hparams hsp hcell => ⟨_, exec_ret u, ?_⟩⟩
  have hcell' : u.mem.get (s.sp - 1).toNat = s.pushReturn.mem.get (s.sp - 1).toNat := by
    rwa [State.sp_jumpTo, State.pushReturn, State.sp_pushByte] at hcell
  obtain ⟨hpopped, hback⟩ := popUndoesPush s u _ hparams hsp hcell'
  rw [State.pc_jumpTo, State.sp_jumpTo, hpopped, hback, toNat_returnAddress s (by omega)]
  exact ⟨rfl, rfl⟩

/-- Settles O49: the value of the register is an argument of the push, so it is read before SP is decremented. -/
theorem pushStoresBelowTheStackPointer : Obligations.PushStoresBelowTheStackPointer := by
  refine ⟨encodedWithRegister_of_withRegister (fun _ => rfl) fun _ _ => rfl, fun s a => ?_⟩
  exact ⟨_, exec_push_operand s a, s.sp_pushByte (s.reg a), get_pushByte_same s _,
    keepsMemoryBut_pushByte s (s.reg a), advances_advance rfl, keepsRegistersBut_pushByte s (s.reg a), rfl,
    ⟨rfl, rfl, rfl, rfl, rfl⟩, rfl, rfl, rfl⟩

/-- Settles O50: the register write comes last, so it is what the register holds even when it is SP; any other leaves
the increment of SP. -/
theorem popReadsAtTheStackPointer : Obligations.PopReadsAtTheStackPointer := by
  refine ⟨encodedWithRegister_of_withRegister (fun _ => rfl) fun _ _ => rfl, fun s a => ?_⟩
  exact ⟨_, exec_pop_operand s a, State.reg_setReg_same _ a _,
    fun ha => (State.sp_setReg_of_ne s.pop.2 ha _).trans s.sp_pop, advances_advance rfl,
    keepsRegistersBut_pop_setReg s a _, rfl, fun _ => rfl, ⟨rfl, rfl, rfl, rfl, rfl⟩, rfl, rfl, rfl⟩

/-- Settles O51: the target is a register of the state after the push, in which SP is one lower. -/
theorem callPushesTheReturnAddress : Obligations.CallPushesTheReturnAddress := by
  refine ⟨encodedWithRegister_of_withRegister (fun _ => rfl) fun _ _ => rfl, fun s a hpc => ?_, fun s a hpc => ?_⟩
  · rw [exec_call_operand_of_ge s a (by omega), hpc]
  · have hstored : (s.pushReturn.mem.get (s.sp - 1#8).toNat).toNat = s.pc + 2 := by
      rw [State.pushReturn, get_pushByte_same, toNat_returnAddress s (by omega)]
    have htarget : (s.pushReturn.reg a).toNat =
        if a = s.params.spReg then (s.sp - 1#8).toNat else (s.reg a).toNat := by
      rw [State.pushReturn, State.reg_pushByte, apply_ite BitVec.toNat]
      rfl
    have hsp : s.pushReturn.sp = s.sp - 1#8 := s.sp_pushByte _
    have hmem : KeepsMemoryBut (s.sp - 1#8).toNat s s.pushReturn := keepsMemoryBut_pushByte s _
    have hregs : KeepsRegistersBut [s.params.spReg] s s.pushReturn := keepsRegistersBut_pushByte s _
    exact ⟨_, exec_call_operand s a (by omega), hsp, hstored, hmem, htarget, hregs, rfl, ⟨rfl, rfl, rfl, rfl, rfl⟩,
      rfl, rfl, rfl⟩

/-- Settles O53: each tests the one bit of FL that its condition names. -/
theorem jumpsOnOneFlag : Obligations.JumpsOnOneFlag :=
  ⟨jumpRule_of_jumpIf rfl (fun _ => rfl) (fun _ _ => rfl) fun _ => Iff.rfl,
    jumpRule_of_jumpIf rfl (fun _ => rfl) (fun _ _ => rfl) condNotEqual_iff,
    jumpRule_of_jumpIf rfl (fun _ => rfl) (fun _ _ => rfl) fun _ => Iff.rfl,
    jumpRule_of_jumpIf rfl (fun _ => rfl) (fun _ _ => rfl) fun _ => Iff.rfl⟩

/-- Settles O54: the two conditions, split by the reading. -/
theorem jumpsOnTwoFlagsInBothReadings : Obligations.JumpsOnTwoFlagsInBothReadings :=
  ⟨jumpRule_of_jumpIf rfl (fun _ => rfl) (fun _ _ => rfl) condGreaterEqual_iff,
    jumpRule_of_jumpIf rfl (fun _ => rfl) (fun _ _ => rfl) condLessEqual_iff⟩

/-- Settles O55: on a one-hot FL the readings agree by `oneHot_or_eq_bne`; FL = 0 has no bit set and is no one-hot
value. -/
theorem readingsAgreeOnOneHotFlags : Obligations.ReadingsAgreeOnOneHotFlags := by
  rintro s u ⟨_, _, _, heg, hel, hgl, _⟩ hbits rfl
  rw [condGreaterEqual_of_bits hbits, condLessEqual_of_bits hbits, condGreaterEqual_of_notLess rfl,
    condLessEqual_of_notLess rfl]
  simp only [State.flagE, State.flagG, State.flagL]
  refine ⟨fun hfl => ?_, fun hfl => ?_⟩
  · exact ⟨(oneHot_or_eq_bne hel hgl hfl).symm, (oneHot_or_eq_bne heg hgl.symm (hfl.imp_right Or.symm)).symm⟩
  · rw [hfl, zero_bne_bit, zero_bne_bit]
    simp

/-- Settles O52: RET jumps to the popped byte, and the pop writes SP alone. -/
theorem retPopsTheProgramCounter : Obligations.RetPopsTheProgramCounter :=
  ⟨rfl, fun s => ⟨_, exec_ret s, rfl, s.sp_pop, keepsRegistersBut_pop s, rfl, fun _ => rfl,
    ⟨rfl, rfl, rfl, rfl, rfl⟩, rfl, rfl, rfl⟩⟩

end Sys2Proof.Machine

namespace Sys2Proof.Machine

open Sys2Proof.Claims

/-! ## INT with the byte of a register (R200) -/

/-- INT with the byte of a register replaces IS, latches ELIG and advances (R200). -/
theorem exec_int_operand (s : State) (a : Reg) :
    exec (.int (operand a)) s =
      .next (((s.setReg s.params.isReg (s.reg a)).setElig (s.elig || s.params.intSetsElig)).advance (s.width .int)) :=
  withRegister_operand _

/-! ## What a return from an interrupt pops (R101, R201) -/

theorem ofNat_sub_one_sub {j k : Nat} (h : k < j) (hj : j < 256) :
    BitVec.ofNat 8 j - 1#8 - BitVec.ofNat 8 k = BitVec.ofNat 8 (j - 1 - k) := by
  bv_omega

section
variable (s : State)

/-- IRET returns from the interrupt, in every state (R201). -/
theorem exec_iret : exec .iret s = .next s.returnFromInterrupt := rfl

/-- The byte that a return from an interrupt pops into SP, after the registers above SP_REG (R101, R201). -/
def State.poppedSp (s : State) : Byte := s.mem.get (s.sp + (7#8 - BitVec.ofNat 8 s.params.spReg.val)).toNat

/-- `State.restoreRegisters_spec` with the offsets as differences of bytes. -/
theorem State.restoreRegisters_effect :
    s.restoreRegisters.sp = s.poppedSp + BitVec.ofNat 8 s.params.spReg.val ∧
    (∀ k : Reg, s.params.spReg < k →
      s.restoreRegisters.reg k = s.mem.get (s.sp + (7#8 - BitVec.ofNat 8 k.val)).toNat) ∧
    ∀ k : Reg, k < s.params.spReg → s.restoreRegisters.reg k =
      s.mem.get (s.poppedSp + (BitVec.ofNat 8 s.params.spReg.val - 1#8 - BitVec.ofNat 8 k.val)).toNat := by
  have habove (k : Reg) : 7#8 - BitVec.ofNat 8 k.val = BitVec.ofNat 8 (7 - k.val) := by bv_omega
  obtain ⟨hsp, hhigh, hlow⟩ := s.restoreRegisters_spec _ rfl s.poppedSp (by rw [State.poppedSp, habove])
  refine ⟨hsp, fun k hk => ?_, fun k hk => ?_⟩
  · rw [hhigh k hk, habove]
  · rw [hlow k hk, ofNat_sub_one_sub hk (by omega)]

theorem State.sp_restoreRegisters :
    s.restoreRegisters.sp = s.poppedSp + BitVec.ofNat 8 s.params.spReg.val := by
  obtain ⟨hsp, _⟩ := s.restoreRegisters_effect
  exact hsp

@[simp] theorem State.params_returnFromInterrupt : s.returnFromInterrupt.params = s.params :=
  ExecFrame.of_returnFromInterrupt.params

theorem State.sp_returnFromInterrupt :
    s.returnFromInterrupt.sp = s.poppedSp + BitVec.ofNat 8 s.params.spReg.val + 2#8 := by
  rw [State.sp, State.params_returnFromInterrupt, State.reg_returnFromInterrupt, if_pos rfl,
    State.sp_restoreRegisters]

theorem State.reg_returnFromInterrupt_of_gt {k : Reg} (h : s.params.spReg < k) :
    s.returnFromInterrupt.reg k = s.mem.get (s.sp + (7#8 - BitVec.ofNat 8 k.val)).toNat := by
  obtain ⟨_, hhigh, _⟩ := s.restoreRegisters_effect
  rw [State.reg_returnFromInterrupt, if_neg h.ne', hhigh k h]

theorem State.reg_returnFromInterrupt_of_lt {k : Reg} (h : k < s.params.spReg) :
    s.returnFromInterrupt.reg k =
      s.mem.get (s.poppedSp + (BitVec.ofNat 8 s.params.spReg.val - 1#8 - BitVec.ofNat 8 k.val)).toNat := by
  obtain ⟨_, _, hlow⟩ := s.restoreRegisters_effect
  rw [State.reg_returnFromInterrupt, if_neg h.ne, hlow k h]

theorem State.fl_returnFromInterrupt :
    s.returnFromInterrupt.fl = s.mem.get (s.poppedSp + BitVec.ofNat 8 s.params.spReg.val).toNat := by
  rw [← State.sp_restoreRegisters]
  simp [State.returnFromInterrupt]

theorem State.pc_returnFromInterrupt :
    s.returnFromInterrupt.pc = (s.mem.get (s.poppedSp + BitVec.ofNat 8 s.params.spReg.val + 1#8).toNat).toNat := by
  rw [← State.sp_restoreRegisters]
  simp [State.returnFromInterrupt]

end

/-! ## The frame of an interrupt entry, and the return over it (R236, R202) -/

/-- Memory holds the frame of an interrupt entry with stack pointer `S` (R236): `pc` and FL, then `x[k]` at
S - 3 - k, where SP, the register `j`, has the value it had before its own push (log entry 19). -/
structure HoldsFrame (m : Memory) (j : Reg) (S : Byte) (x : Reg → Byte) (fl : Byte) (pc : Nat) : Prop where
  pc : (m.get (S - 1#8).toNat).toNat = pc
  fl : m.get (S - 2#8).toNat = fl
  sp : m.get (S - 3#8 - BitVec.ofNat 8 j.val).toNat = S - 2#8 - BitVec.ofNat 8 j.val
  reg : ∀ k, k ≠ j → m.get (S - 3#8 - BitVec.ofNat 8 k.val).toNat = x k

section
variable {m n : Memory} {j : Reg} {S : Byte} {x : Reg → Byte} {fl : Byte} {pc : Nat}

theorem sub_ten_add (S k : Byte) : S - 10#8 + (7#8 - k) = S - 3#8 - k := by
  bv_omega

theorem popped_add_below (S j k : Byte) : S - 2#8 - j + (j - 1#8 - k) = S - 3#8 - k := by
  bv_omega

/-- The frame is ten bytes: it is in any memory that reads as `m` does at S - 1 to S - 10. -/
theorem HoldsFrame.congr (h : HoldsFrame m j S x fl pc)
    (hmn : ∀ k, 1 ≤ k → k ≤ 10 → n.get (S - BitVec.ofNat 8 k).toNat = m.get (S - BitVec.ofNat 8 k).toNat) :
    HoldsFrame n j S x fl pc := by
  have hreg (k : Reg) :
      n.get (S - 3#8 - BitVec.ofNat 8 k.val).toNat = m.get (S - 3#8 - BitVec.ofNat 8 k.val).toNat := by
    rw [sub_three_sub, sub_sub_ofNat]
    exact hmn _ (by omega) (by omega)
  obtain ⟨hpc, hfl, hsp, hx⟩ := h
  exact ⟨(congrArg BitVec.toNat (hmn 1 (by decide) (by decide))).trans hpc,
    (hmn 2 (by decide) (by decide)).trans hfl, (hreg j).trans hsp, fun k hk => (hreg k).trans (hx k hk)⟩

/-- A return with SP = S - 10 over the frame gives back what the frame holds, and SP = S. -/
theorem HoldsFrame.returnFromInterrupt {s : State} (h : HoldsFrame s.mem s.params.spReg S x fl pc)
    (hS : s.sp = S - 10#8) :
    s.returnFromInterrupt.sp = S ∧ (∀ k, k ≠ s.params.spReg → s.returnFromInterrupt.reg k = x k) ∧
      s.returnFromInterrupt.fl = fl ∧ s.returnFromInterrupt.pc = pc := by
  obtain ⟨hpc, hfl, hsp, hx⟩ := h
  have hcell (k : Reg) : s.sp + (7#8 - BitVec.ofNat 8 k.val) = S - 3#8 - BitVec.ofNat 8 k.val := by
    rw [hS]
    exact sub_ten_add S _
  have hpopped : s.poppedSp = S - 2#8 - BitVec.ofNat 8 s.params.spReg.val := by
    rw [State.poppedSp, hcell, hsp]
  have htop : s.poppedSp + BitVec.ofNat 8 s.params.spReg.val = S - 2#8 := by
    rw [hpopped, BitVec.sub_add_cancel]
  have hnext : S - 2#8 + 1#8 = S - 1#8 := by bv_omega
  refine ⟨?_, fun k hk => ?_, ?_, ?_⟩
  · rw [State.sp_returnFromInterrupt, htop, BitVec.sub_add_cancel]
  · rcases lt_or_gt_of_ne hk with hlt | hgt
    · have hbelow : s.poppedSp + (BitVec.ofNat 8 s.params.spReg.val - 1#8 - BitVec.ofNat 8 k.val) =
          S - 3#8 - BitVec.ofNat 8 k.val := by
        rw [hpopped, popped_add_below]
      rw [State.reg_returnFromInterrupt_of_lt s hlt, hbelow, hx k hk]
    · rw [State.reg_returnFromInterrupt_of_gt s hgt, hcell, hx k hk]
  · rw [State.fl_returnFromInterrupt, htop, hfl]
  · rw [State.pc_returnFromInterrupt, htop, hnext, hpc]

end

section
variable {s h : State} {i : Line}

/-- Two different addresses at most 255 below one. -/
theorem sub_ofNat_ne_sub_ofNat {a : Byte} {j k : Nat} (hj : j < 256) (hk : k < 256) (h : j ≠ k) :
    a - BitVec.ofNat 8 j ≠ a - BitVec.ofNat 8 k := by
  bv_omega

/-- What an interrupt entry pushes is the frame: `pc`, FL and the registers, IS without the line among them. -/
theorem holdsFrame_entered (hne : s.params.spReg ≠ s.params.isReg) (hpc : s.pc ≤ 255) :
    HoldsFrame (s.entered i).mem s.params.spReg s.sp (s.entered i).reg s.fl s.pc := by
  have habove (a : Nat) (ha : a < 3) (j : Nat) (hj : 3 ≤ j) (hj' : j ≤ 10) :
      s.sp - BitVec.ofNat 8 a ≠ s.sp - BitVec.ofNat 8 j :=
    sub_ofNat_ne_sub_ofNat (by omega) (by omega) (by omega)
  have hone : s.sp - 1 = s.sp - 1#8 := rfl
  have htwo : s.sp - 1#8 - 1 = s.sp - 2#8 := by bv_omega
  have hcells : (s.sp - 1#8).toNat ≠ (s.sp - 2#8).toNat :=
    BitVec.toNat_inj.not.mpr (sub_ofNat_ne_sub_ofNat (by decide) (by decide) (by decide))
  refine ⟨?_, ?_, ?_, fun k hk => ?_⟩
  · rw [State.get_entered_of_ne s i hne _ (habove 1 (by decide)), hone, htwo, Memory.get_set_of_ne _ hcells,
      Memory.get_set_same, BitVec.toNat_ofNat, Nat.mod_eq_of_lt (by omega)]
  · rw [State.get_entered_of_ne s i hne _ (habove 2 (by decide)), hone, htwo, Memory.get_set_same]
  · rw [State.get_entered s i hne, if_pos rfl]
  · rw [State.get_entered s i hne, if_neg hk]

/-- A return with SP and the frame as an interrupt entry left them gives back FL, `pc` and every register as the entry
found it, but for the acknowledged line (R202). -/
theorem returnFromInterrupt_of_entered (hne : s.params.spReg ≠ s.params.isReg) (hpc : s.pc ≤ 255)
    (hparams : h.params = s.params) (hsp : h.sp = s.sp - 10#8)
    (hmem : ∀ k, 1 ≤ k → k ≤ 10 → h.mem.get (s.sp - BitVec.ofNat 8 k).toNat =
      (s.entered i).mem.get (s.sp - BitVec.ofNat 8 k).toNat) :
    (∀ r, h.returnFromInterrupt.reg r = (s.acknowledge i).reg r) ∧
      h.returnFromInterrupt.fl = s.fl ∧ h.returnFromInterrupt.pc = s.pc := by
  have hframe : HoldsFrame h.mem h.params.spReg s.sp (s.entered i).reg s.fl s.pc := by
    rw [hparams]
    exact (holdsFrame_entered hne hpc).congr hmem
  obtain ⟨hback, hregs, hfl, hpcback⟩ := hframe.returnFromInterrupt hsp
  refine ⟨fun r => ?_, hfl, hpcback⟩
  rw [State.reg_acknowledge]
  by_cases hr : r = s.params.spReg
  · rw [State.sp, State.params_returnFromInterrupt, hparams] at hback
    rw [hr, if_neg hne, hback, State.sp]
  · rw [hregs r (hparams ▸ hr), State.reg_entered s i hne, if_neg hr]

/-- The step of a cycle that is interrupted, with a `pc` that a byte holds, is the entry and the jump to its
handler: under the constraints of R8 all vector slots are in memory. -/
theorem step_enters (h : s.interrupted i) (hp : s.params.wf) (hpc : s.pc ≤ 255) :
    ∃ v, step s = .next ((s.timerPoll.entered i).jumpTo v) := by
  obtain ⟨_, _, _, _, _, _, _, _, hvt⟩ := hp
  have hslot : s.timerPoll.params.vtBase.toNat + i.val < 256 := by
    rw [State.params_timerPoll]
    omega
  rw [step_of_interrupted h, State.enterInterrupt_eq, State.pc_timerPoll, if_pos (by omega), if_pos hslot]
  exact ⟨_, rfl⟩

end

/-! ## The obligations about the interrupt instructions -/

/-- Settles O56: INT writes IS and ELIG, each once, and advances. -/
theorem intReplacesTheInterruptStatus : Obligations.IntReplacesTheInterruptStatus := by
  refine ⟨encodedWithRegister_of_withRegister (fun _ => rfl) fun _ _ => rfl, fun s a => ?_⟩
  refine ⟨_, exec_int_operand s a, State.is_setReg_isReg s _, fun h => ?_, fun h => ?_, advances_advance rfl,
    keepsRegistersBut_setReg_advance s _ _ (s.width .int), rfl, fun _ => rfl, rfl, rfl, rfl, rfl, rfl, rfl, rfl⟩
  · rw [State.elig_advance, State.elig_setElig, h, Bool.or_true]
  · rw [State.elig_advance, State.elig_setElig, h, Bool.or_false]

/-- Settles O57: the pops by `State.restoreRegisters_effect`, the rest by the frame of the return. -/
theorem iretPopsRegistersFlagsAndPc : Obligations.IretPopsRegistersFlagsAndPc := by
  refine ⟨rfl, fun s => ⟨_, exec_iret s, ?_⟩⟩
  obtain ⟨hie, hmem, helig, htacc, htime, hparams, hstatus, hout, hmsg, _⟩ := s.returnFromInterrupt_frame
  exact ⟨⟨fun _ => s.reg_returnFromInterrupt_of_gt, fun _ => s.reg_returnFromInterrupt_of_lt,
    s.fl_returnFromInterrupt, s.pc_returnFromInterrupt, s.sp_returnFromInterrupt⟩, hie, fun a => by rw [hmem], helig,
    htacc, htime, hparams, hstatus, hout, hmsg⟩

/-- Settles O29: the cycle enters the interrupt from the state after the timer poll, and the return over the frame
gives back that state's registers, the line acknowledged. -/
theorem iretUndoesInterruptEntry : Obligations.IretUndoesInterruptEntry := by
  intro s h i hi hp hpc
  obtain ⟨v, hstep⟩ := step_enters hi hp hpc
  obtain ⟨_, hne, _⟩ := hp
  refine ⟨_, hstep, fun hparams hsp hmem => ⟨_, exec_iret h, ?_⟩⟩
  simp only [State.mem_jumpTo] at hmem
  obtain ⟨hregs, hfl, hpcback⟩ := returnFromInterrupt_of_entered (by rwa [State.params_timerPoll])
    (by rwa [State.pc_timerPoll]) (hparams.trans s.params_timerPoll.symm) hsp hmem
  obtain ⟨hie, _⟩ := h.returnFromInterrupt_frame
  simp only [State.reg_acknowledge, State.params_timerPoll] at hregs
  refine ⟨fun r hr => ?_, ?_, hfl.trans s.fl_timerPoll, hpcback.trans s.pc_timerPoll, ?_, hie⟩
  · rw [hregs, if_neg (List.ne_of_not_mem_cons hr)]
  · rw [State.is, State.params_returnFromInterrupt, hparams, hregs, if_pos rfl]
    rfl
  · rw [State.sp, State.params_returnFromInterrupt, hparams, hregs, if_neg hne, State.sp, State.params_timerPoll]

end Sys2Proof.Machine

namespace Sys2Proof.Machine

open Sys2Proof.Claims

/-! ## The frame of a store (R53) -/

section
variable (s : State) (a v : Byte)

/-- The cell that a store writes reads as the byte stored. -/
theorem get_storeByte_same : (s.storeByte a v).mem.get a.toNat = v := by
  rw [State.mem_storeByte, Memory.get_set_same]

theorem keepsMemoryBut_storeByte : KeepsMemoryBut a.toNat s (s.storeByte a v) := by
  intro b hb
  rw [State.mem_storeByte, Memory.get_set_of_ne _ hb]

end

/-! ## The unconfirmed instructions with the bytes of registers (R211 to R213) -/

section
variable (s : State) (a b : Reg)

/-- NOP advances (R211). -/
theorem exec_nop : exec .nop s = .next (s.advance (s.width .nop)) := rfl

/-- JMP with the byte of a register jumps to its value (R212). -/
theorem exec_jmp_operand : exec (.jmp (operand a)) s = .next (s.jumpTo (s.reg a)) := withRegister_operand _

/-- LD with the bytes of two registers reads memory at the address in the second, writes it to the first and
advances (R213). -/
theorem exec_ld_operand :
    exec (.ld (operand a) (operand b)) s =
      .next ((s.setReg a (s.mem.get (s.reg b).toNat)).advance (s.width .ld)) :=
  withRegisters_operand _

end

/-! ## The obligations about the unconfirmed instructions -/

/-- Settles O60: the store writes the one cell that `rA` addresses, and the advance writes `pc` alone. -/
theorem stStoresAtTheAddressInRa : Obligations.StStoresAtTheAddressInRa := by
  refine ⟨encodedWithRegisters_of_withRegisters (fun _ _ => rfl) fun _ _ _ => rfl, fun s a b => ?_⟩
  exact ⟨_, exec_st_operand s a b, get_storeByte_same s _ _, keepsMemoryBut_storeByte s _ (s.reg b),
    advances_advance rfl, fun _ => rfl, rfl, ⟨rfl, rfl, rfl, rfl, rfl⟩, rfl, rfl, rfl⟩

/-- Settles O58: the advance and the jump each write `pc` alone. -/
theorem nopAdvancesAndJmpJumps : Obligations.NopAdvancesAndJmpJumps := by
  refine ⟨rfl, encodedWithRegister_of_withRegister (fun _ => rfl) fun _ _ => rfl, fun s => ?_, fun s a => ?_⟩
  · exact ⟨_, exec_nop s, advances_advance rfl, keepsAllButPc_withPc s _⟩
  · exact ⟨_, exec_jmp_operand s a, State.pc_jumpTo s _, keepsAllButPc_withPc s _⟩

/-- Settles O59: LD is a register write with the advance, of the byte that memory holds before it. -/
theorem ldLoadsFromTheAddressInRb : Obligations.LdLoadsFromTheAddressInRb := by
  refine ⟨encodedWithRegisters_of_withRegisters (fun _ _ => rfl) fun _ _ _ => rfl, fun s a b => ?_⟩
  exact ⟨_, exec_ld_operand s a b, State.reg_setReg_same s a _, advances_advance rfl,
    keepsRegistersBut_setReg_advance s a _ _, keepsAllButRegisters_setReg_advance s a _ _⟩

end Sys2Proof.Machine

namespace Sys2Proof

/-! ## An opcode byte that is not admitted (R93, R226) -/

/-- The admission is decided by the opcode byte, whatever follows it. -/
theorem decode_of_not_admitted {p : Params} {m : Mnemonic} (hp : p.wf) (ha : p.admits m = false) (rest : List Byte) :
    decode p (p.opc.value m :: rest) = .error (.notAdmitted (p.opc.value m)) := by
  simp [decode, lookup_value hp, ha]

end Sys2Proof

namespace Sys2Proof.Machine

open Sys2Proof.Claims

/-! ## Opcode bytes that end the run (R221, R226) -/

section
variable {s : State} {m : Mnemonic}

/-- The step that fetches a byte without a row is the fault of the lookup, wherever the byte stands (R221). -/
theorem step_of_unknown_opcode (hf : s.fetches) (hpc : s.pc ≤ 255) (hl : lookup s.params.opc (s.mem.get s.pc) = none) :
    step s = .fault (.unknownOpcode (s.mem.get s.pc)) := by
  have hd : decode s.params s.fetch = .error (.unknownOpcode (s.mem.get s.pc)) := by
    rw [State.fetch_eq s hpc, decode_of_lookup_eq_none hl]
  rw [step_of_decode_error hf hd, rejection]

/-- The step that fetches the opcode byte of a row that is not admitted is its refusal (R93, R226). -/
theorem step_of_not_admitted (hf : s.fetches) (hp : s.params.wf) (hpc : s.pc ≤ 255)
    (hop : s.mem.get s.pc = s.params.opc.value m) (ha : s.params.admits m = false) :
    step s = .refused (.unconfirmedOpcode (s.mem.get s.pc)) := by
  have hd : decode s.params s.fetch = .error (.notAdmitted (s.mem.get s.pc)) := by
    rw [State.fetch_eq s hpc, hop, decode_of_not_admitted hp ha]
  rw [step_of_decode_error hf hd, rejection]

/-- A cycle whose step refuses an opcode ends as the refusal leaves it (R226). -/
theorem cycle_of_unconfirmedOpcode {op : Byte} (h : step s = .refused (.unconfirmedOpcode op)) :
    cycle s = s.refuse op := by
  rw [cycle, h]; rfl

end

/-! ## Register operand bytes of 8 or more (R74, R223) -/

/-- The register operand byte does not name a register. -/
def isBadRegister (r : Byte) : Bool := decide (8 ≤ r.toNat)

section
variable {rA rB r : Byte} {s : State} {f : Fault}

/-- The operand check of one register raises the fault of the bad byte among its operands. -/
theorem withRegister_of_find?_bad (h : [rA].find? isBadRegister = some r)
    (k : Reg → Host.Outcome State Fault Refusal) : withRegister rA k = .fault (.badRegisterIndex r) := by
  by_cases hA : 8 ≤ rA.toNat
  · obtain rfl : rA = r := by simpa [isBadRegister, hA] using h
    exact withRegister_of_ge hA k
  · simp [isBadRegister, hA] at h

/-- The operand check of two registers raises the fault of the first bad byte among its operands. -/
theorem withRegisters_of_find?_bad (h : [rA, rB].find? isBadRegister = some r)
    (k : Reg → Reg → Host.Outcome State Fault Refusal) : withRegisters rA rB k = .fault (.badRegisterIndex r) := by
  by_cases hA : 8 ≤ rA.toNat
  · obtain rfl : rA = r := by simpa [isBadRegister, hA] using h
    exact withRegisters_of_ge_left hA k
  · have hB : [rB].find? isBadRegister = some r := by simpa [isBadRegister, hA] using h
    rw [withRegisters, withRegister_of_lt (by omega)]
    exact withRegister_of_find?_bad hB _

/-- Every instruction checks all its register operands, in order, before anything else (R74, R223). -/
theorem exec_of_find?_bad {i : Instr} (h : i.registerOperands.find? isBadRegister = some r) :
    exec i s = .fault (.badRegisterIndex r) := by
  cases i with
  | nop | hlt | ret | iret => cases h
  | push | pop | prn | pra | call | int | jmp | jeq | jne | jgt | jlt | jle | jge | inc | dec | not | ldi =>
    exact withRegister_of_find?_bad h _
  | ld | st | add | sub | mul | div | mod | cmp | and | or | xor | shl | shr =>
    exact withRegisters_of_find?_bad h _

/-! ## What can fault (R223, R224) -/

/-- After the check of its one operand an instruction that always goes on raises nothing. -/
theorem bad_of_withRegister_fault {k : Reg → Host.Outcome State Fault Refusal} (hk : ∀ a, ∃ t, k a = .next t)
    (h : withRegister rA k = .fault f) : ∃ r, f = .badRegisterIndex r := by
  rcases withRegister_fault h with h | ⟨a, h⟩
  · exact ⟨rA, h⟩
  · obtain ⟨t, ht⟩ := hk a
    cases ht.symm.trans h

/-- After the check of its two operands an instruction that always goes on raises nothing. -/
theorem bad_of_withRegisters_fault {k : Reg → Reg → Host.Outcome State Fault Refusal}
    (hk : ∀ a b, ∃ t, k a b = .next t) (h : withRegisters rA rB k = .fault f) : ∃ r, f = .badRegisterIndex r := by
  rcases withRegister_fault h with h | ⟨a, h⟩
  · exact ⟨rA, h⟩
  · exact bad_of_withRegister_fault (hk a) h

/-- The faults that executing an instruction can raise: that of an operand byte, and that of the push of a CALL. -/
theorem exec_fault {i : Instr} (h : exec i s = .fault f) :
    (∃ r, f = .badRegisterIndex r) ∨
      ∃ rA, i = .call rA ∧ 256 ≤ s.pc + 2 ∧ f = .pcNotStorable (s.pc + 2) := by
  cases i with
  | nop | hlt | ret | iret => cases h
  | call rA =>
    rcases execCall_fault h with h | ⟨hpc, h⟩
    · exact .inl ⟨rA, h⟩
    · exact .inr ⟨rA, rfl, hpc, h⟩
  | push | pop | prn | pra | int | jmp | jeq | jne | jgt | jlt | jle | jge | inc | dec | not | ldi =>
    exact .inl (bad_of_withRegister_fault (fun _ => ⟨_, rfl⟩) h)
  | ld | st | add | sub | mul | cmp | and | or | xor | shl | shr =>
    exact .inl (bad_of_withRegisters_fault (fun _ _ => ⟨_, rfl⟩) h)
  | div | mod =>
    refine .inl (bad_of_withRegisters_fault (fun a b => ?_) h)
    split <;> exact ⟨_, rfl⟩

theorem outcomeOf_eq_next {r : Except Fault State} {t : State} : outcomeOf r = .next t ↔ r = .ok t := by
  cases r <;> simp [outcomeOf]

theorem outcomeOf_eq_fault {r : Except Fault State} : outcomeOf r = .fault f ↔ r = .error f := by
  cases r <;> simp [outcomeOf]

/-- Everything a step that faults can be (R90): an interrupt entry, an instruction, or bytes that do not decode. -/
theorem step_fault (h : step s = .fault f) :
    (∃ i, s.interrupted i ∧ s.timerPoll.enterInterrupt i = .error f) ∨
    (s.fetches ∧ ∃ i, Decodes s i ∧ exec i s.timerPoll = .fault f) ∨
    (s.fetches ∧ ∃ e, decode s.params s.fetch = .error e ∧ rejection s.pc e = .fault f) := by
  by_cases hs : s.status = .running
  · cases hc : s.timerPoll.interruptCheck with
    | some i =>
      rw [step_of_interrupted ⟨hs, hc⟩] at h
      exact .inl ⟨i, ⟨hs, hc⟩, outcomeOf_eq_fault.mp h⟩
    | none =>
      have hf : s.fetches := ⟨hs, hc⟩
      cases hd : decode s.params s.fetch with
      | ok i => exact .inr (.inl ⟨hf, i, hd, (step_of_decodes hf hd).symm.trans h⟩)
      | error e => exact .inr (.inr ⟨hf, e, rfl, (step_of_decode_error hf hd).symm.trans h⟩)
  · rw [step_of_terminal hs] at h
    cases h

theorem rejection_ne_pcNotStorable (pc v : Nat) (e : Reject) : rejection pc e ≠ .fault (.pcNotStorable v) := by
  cases e <;> exact fun h => nomatch h

/-- An interrupt entry with a program counter that no byte holds raises the fault of its push (R224, R235). -/
theorem step_of_interrupted_of_pc_ge {i : Line} (h : s.interrupted i) (hpc : 256 ≤ s.pc) :
    step s = .fault (.pcNotStorable s.pc) := by
  rw [step_of_interrupted h, State.enterInterrupt_eq, State.pc_timerPoll, if_neg (by omega)]
  rfl

/-- An interrupt entry raises PcNotStorable only for a program counter that no byte holds (R224). -/
theorem pc_of_enterInterrupt_pcNotStorable {i : Line} {v : Nat} (h : s.enterInterrupt i = .error (.pcNotStorable v)) :
    256 ≤ s.pc ∧ v = s.pc := by
  rw [State.enterInterrupt_eq] at h
  split_ifs at h with hpc hslot
  · cases h
  · cases h
    exact ⟨by omega, rfl⟩

end

/-! ## The obligations about faults and refusals -/

/-- Settles O15: the lookup that finds no row is the fault, and the cycle ends as the raised fault leaves it. -/
theorem unknownOpcodeEndsTheRun : Obligations.UnknownOpcodeEndsTheRun := by
  intro s hf hpc hop
  have hstep := step_of_unknown_opcode hf hpc (lookup_eq_none.mpr hop)
  rw [cycle_of_fault hstep]
  exact ⟨hstep, rfl, rfl, rfl⟩

/-- Settles O16: an unconfirmed row is admitted by the parameter alone. -/
theorem unconfirmedOpcodeIsRefusedUnlessAdmitted : Obligations.UnconfirmedOpcodeIsRefusedUnlessAdmitted := by
  intro s m hf hp hpc hm hop hadmit
  have ha : s.params.admits m = false := by rw [Params.admits, hm, hadmit]; rfl
  have hstep := step_of_not_admitted hf hp hpc hop ha
  rw [cycle_of_unconfirmedOpcode hstep]
  exact ⟨hstep, rfl, rfl, rfl⟩

/-- Settles O17: the operand check comes first in every instruction, and takes the operands in order. -/
theorem badRegisterOperandFaults : Obligations.BadRegisterOperandFaults := by
  intro i s r h
  rw [exec_of_find?_bad h]
  exact ⟨rfl, rfl⟩

/-- Settles O18: of the three ways a step can fault, an entry pushes `pc` and of the instructions only CALL pushes
`pc + 2`; a CALL that decodes ends by 256, so the 256 it pushes is from 254. -/
theorem pcNotStorableOnlyInTwoCases : Obligations.PcNotStorableOnlyInTwoCases := by
  refine ⟨fun s => s.push_eq 256, fun s i hi hpc => ?_, fun s a hpc => ?_, fun s v hs h => ?_⟩
  · rw [step_of_interrupted_of_pc_ge hi hpc.ge, hpc]
  · rw [exec_call_operand_of_ge s a (by omega), hpc]
  · obtain ⟨_, hpc, _, _, hp⟩ := hs
    rcases step_fault h with ⟨i, hi, he⟩ | ⟨hf, i, hd, he⟩ | ⟨_, e, _, he⟩
    · obtain ⟨hge, rfl⟩ := pc_of_enterInterrupt_pcNotStorable he
      rw [State.pc_timerPoll] at hge ⊢
      exact ⟨by omega, .inl ⟨i, hi, by omega⟩⟩
    · rcases exec_fault he with ⟨r, hr⟩ | ⟨rA, rfl, hge, hv⟩
      · cases hr
      · cases hv
        have hend := pc_add_width_le hd
        rw [State.width_eq s hp] at hend
        have hend : s.pc + 2 ≤ 256 := hend
        rw [State.pc_timerPoll] at hge ⊢
        exact ⟨by omega, .inr ⟨hf, ⟨rA, hd⟩, by omega⟩⟩
    · exact absurd he (rejection_ne_pcNotStorable _ _ _)

/-! ## The timer poll (R231, R232) -/

section
variable {s : State}

theorem Seconds.toRat_nonneg (t : Seconds) : 0 ≤ t.toRat := by
  rw [Seconds.toRat]
  positivity

/-- From proper times, what the timer poll compares with the period is a proper fraction, the rational sum. -/
theorem add_elapsed_proper (h : TimesProper s) :
    (Seconds.add s.tacc s.elapsed).wf ∧
      (Seconds.add s.tacc s.elapsed).toRat = s.tacc.toRat + s.elapsed.toRat := by
  obtain ⟨htacc, hin⟩ := h
  have hdt := State.elapsed_wf hin
  exact ⟨Seconds.wf_add htacc hdt, Seconds.toRat_add htacc hdt⟩

/-- The timer poll of a cycle that ticks (R231). -/
theorem timerPoll_of_ticks (h : TimesProper s) (ht : Ticks s) :
    s.timerPoll.tacc.toRat = s.tacc.toRat + s.elapsed.toRat - 1 ∧ s.timerPoll.elig = true ∧
      s.timerPoll.is = s.is ||| bit 0 ∧ KeepsRegistersBut [s.params.isReg] s s.timerPoll := by
  have hreach := (reachesPeriod_add_iff_ticks h).mpr ht
  obtain ⟨hwf, hsum⟩ := add_elapsed_proper h
  rcases s.timerPoll_cases with ⟨_, hpoll⟩ | ⟨hno, _⟩
  · refine ⟨?_, ?_, ?_, fun r hr => State.reg_timerPoll s (List.ne_of_not_mem_cons hr)⟩
    · rw [hpoll, ← hsum]
      exact Seconds.toRat_lessPeriod hwf hreach
    · rw [hpoll]
    · rw [hpoll]
      exact State.is_setReg_isReg s _
  · exact absurd hreach (by simp [hno])

/-- The timer poll of a cycle that does not tick (R231). -/
theorem timerPoll_of_not_ticks (h : TimesProper s) (ht : ¬ Ticks s) :
    s.timerPoll.tacc.toRat = s.tacc.toRat + s.elapsed.toRat ∧ s.timerPoll.elig = s.elig ∧
      KeepsRegisters s s.timerPoll := by
  rcases s.timerPoll_cases with ⟨hreach, _⟩ | ⟨_, hpoll⟩
  · exact absurd ((reachesPeriod_add_iff_ticks h).mp hreach) ht
  · rw [hpoll]
    obtain ⟨_, hsum⟩ := add_elapsed_proper h
    exact ⟨hsum, rfl, fun _ => rfl⟩

theorem timesProper_timerPoll (h : TimesProper s) : TimesProper s.timerPoll := by
  obtain ⟨htacc, hin⟩ := h
  refine ⟨wf_tacc_timerPoll htacc hin, fun u hu => hin u ?_⟩
  rw [State.time_timerPoll] at hu
  exact List.mem_of_mem_tail hu

/-- After the timer poll of its cycle a step leaves the timer alone (R231). -/
theorem timer_step {t : State} (hs : s.status = .running) (h : step s = .next t) :
    t.tacc = s.timerPoll.tacc ∧ t.time = s.timerPoll.time := by
  rcases step_next h with ⟨hne, _⟩ | ⟨i, _, ht⟩ | ⟨_, i, _, ht⟩
  · exact absurd hs hne
  · obtain ⟨_, _, rfl⟩ := State.enterInterrupt_ok ht
    rw [State.tacc_jumpTo, State.tacc_entered, State.time_jumpTo, State.time_entered]
    exact ⟨rfl, rfl⟩
  · have hf := exec_frame ht
    exact ⟨hf.tacc, hf.time⟩

/-- A time input that makes a cycle tick, or not, when TACC is under a second: a whole second, or none. -/
def tickInput (b : Bool) : Seconds := if b then ⟨1, 1⟩ else ⟨0, 1⟩

theorem wf_tickInput (b : Bool) : (tickInput b).wf := by
  cases b <;> decide

theorem toRat_tickInput (b : Bool) : (tickInput b).toRat = if b then 1 else 0 := by
  cases b <;> simp [tickInput, Seconds.toRat]

/-- With the time input of `b`, a cycle that starts under a second ticks exactly when `b` says so, and the next one
starts under a second too. -/
theorem ticks_of_tickInput {b : Bool} (h : TimesProper s) (hlt : s.tacc.toRat < 1) (hdt : s.elapsed = tickInput b) :
    (Ticks s ↔ b = true) ∧ s.timerPoll.tacc.toRat < 1 := by
  have hnonneg := Seconds.toRat_nonneg s.tacc
  have hel := toRat_tickInput b
  rw [← hdt] at hel
  cases b with
  | true =>
    have ht : Ticks s := by rw [Ticks, hel, if_pos rfl]; linarith
    obtain ⟨htacc, _⟩ := timerPoll_of_ticks h ht
    rw [hel, if_pos rfl] at htacc
    exact ⟨by simp [ht], by linarith⟩
  | false =>
    rw [if_neg Bool.false_ne_true] at hel
    have ht : ¬ Ticks s := by rw [Ticks, hel]; linarith
    obtain ⟨htacc, _⟩ := timerPoll_of_not_ticks h ht
    exact ⟨by simp [ht], by linarith⟩

/-- The time inputs of a list of Booleans make the cycles to come tick as it says, one input for each cycle. -/
theorem ticksAs_of_inputs {bs : List Bool} (hin : s.time.inputs = bs.map tickInput) (hwf : s.tacc.wf)
    (hlt : s.tacc.toRat < 1) : TicksAs bs s := by
  induction bs generalizing s with
  | nil => trivial
  | cons b bs ih =>
    have hproper : TimesProper s := by
      refine ⟨hwf, fun u hu => ?_⟩
      rw [hin] at hu
      obtain ⟨c, _, rfl⟩ := List.mem_map.mp hu
      exact wf_tickInput c
    obtain ⟨htick, hlt'⟩ := ticks_of_tickInput hproper hlt (State.elapsed_of_inputs hin)
    obtain ⟨hwf', _⟩ := timesProper_timerPoll hproper
    refine ⟨htick, ih ?_ hwf' hlt'⟩
    rw [State.time_timerPoll, TimeSource.rest, hin]
    rfl

end

/-- Settles O25: the two cases of the timer poll in rationals; a whole second ticks and no time does not, whatever
fraction TACC holds, so these two inputs make any pattern. -/
theorem timerPollTicksOncePerCycle : Obligations.TimerPollTicksOncePerCycle := by
  refine ⟨fun s t => timer_step, fun s h => ?_, fun s dt rest => State.elapsed_of_inputs, fun s bs hwf hlt => ?_⟩
  · have htime := s.time_timerPoll
    exact ⟨timerPoll_of_ticks h, fun hlt => timerPoll_of_not_ticks h (not_le.mpr hlt),
      congrArg TimeSource.inputs htime, congrArg TimeSource.taken htime, s.pc_timerPoll, s.fl_timerPoll,
      s.ie_timerPoll, fun a => by rw [State.mem_timerPoll], ⟨s.out_timerPoll, s.msg_timerPoll⟩, s.status_timerPoll,
      s.params_timerPoll⟩
  · refine ⟨bs.map tickInput, fun u hu => ?_, ticksAs_of_inputs rfl hwf hlt⟩
    obtain ⟨b, _, rfl⟩ := List.mem_map.mp hu
    exact wf_tickInput b

/-! ## The interrupt check (R233) -/

section
variable {s : State}

/-- The line is both enabled and pending. -/
def Requested (s : State) (i : Line) : Prop := s.im.getLsbD i.val = true ∧ s.is.getLsbD i.val = true

/-- The lines are searched from 0 up, each once. -/
theorem find?_allLines (p : Line → Bool) : allLines.find? p = Fin.find? p := Fin.find?_eq_find?_finRange.symm

theorem interruptCheck_of_disabled (h : s.elig = false ∨ s.ie = false) : s.interruptCheck = none := by
  rcases h with h | h <;> simp [State.interruptCheck, h]

/-- While interrupts are eligible and enabled the check is the search for a requested line. -/
theorem interruptCheck_of_enabled (he : s.elig = true) (hie : s.ie = true) :
    s.interruptCheck = Fin.find? fun i : Line => (s.im &&& s.is).getLsbD i.val := by
  rw [State.interruptCheck, he, hie, find?_allLines]
  rfl

theorem getLsbD_im_and_is (i : Line) : (s.im &&& s.is).getLsbD i.val = true ↔ Requested s i := by
  rw [BitVec.getLsbD_and, Bool.and_eq_true, Requested]

theorem interruptCheck_eq_some_iff (he : s.elig = true) (hie : s.ie = true) (i : Line) :
    s.interruptCheck = some i ↔ Requested s i ∧ ∀ j < i, ¬ Requested s j := by
  simp only [interruptCheck_of_enabled he hie, Fin.find?_eq_some_iff, ← Bool.not_eq_true, getLsbD_im_and_is]

theorem interruptCheck_eq_none_iff (he : s.elig = true) (hie : s.ie = true) :
    s.interruptCheck = none ↔ ∀ i, ¬ Requested s i := by
  simp only [interruptCheck_of_enabled he hie, Fin.find?_eq_none_iff, ← Bool.not_eq_true, getLsbD_im_and_is]

/-- The mask is no part of what the timer poll writes (R8, R231). -/
theorem im_timerPoll (h : s.params.wf) : s.timerPoll.im = s.im := by
  obtain ⟨_, _, hne, _⟩ := h
  rw [State.im, State.params_timerPoll, State.reg_timerPoll s hne, State.im]

end

/-- Settles O26: the check is the library's search for the least index, over the lines in order. -/
theorem interruptCheckFindsTheLowestLine : Obligations.InterruptCheckFindsTheLowestLine := by
  intro s
  refine ⟨fun hs i hc => step_of_interrupted ⟨hs, hc⟩, interruptCheck_of_disabled, fun he hie => ⟨fun i => ?_, ?_⟩⟩
  · rw [interruptCheck_eq_some_iff he hie, Requested, and_assoc]
    rfl
  · exact interruptCheck_eq_none_iff he hie

/-- Settles O27: the tick sets ELIG and IS[0] before the check, and no line is lower than 0. -/
theorem tickEntersLineZeroInItsOwnCycle : Obligations.TickEntersLineZeroInItsOwnCycle := by
  intro s h hp hs ht him hie
  obtain ⟨_, helig, his, _⟩ := timerPoll_of_ticks h ht
  have hreq : Requested s.timerPoll 0 := by
    refine ⟨by rwa [im_timerPoll hp], ?_⟩
    rw [his]
    simp [bit]
  refine ⟨hs, (interruptCheck_eq_some_iff helig (s.ie_timerPoll.trans hie) 0).mpr ⟨hreq, fun j hj => ?_⟩⟩
  exact absurd hj (Fin.not_lt_zero j)

/-! ## Interrupt entries in a step (R235, R236) -/

section
variable {s t : State} {i : Line}

/-- The next state of a cycle that is interrupted is that of the entry. -/
theorem enterInterrupt_of_step (hi : s.interrupted i) (h : step s = .next t) :
    s.timerPoll.enterInterrupt i = .ok t :=
  outcomeOf_eq_next.mp ((step_of_interrupted hi).symm.trans h)

/-- The step of a cycle that is interrupted, with the handler it goes to: the byte in the vector slot, read after the
pushes. -/
theorem step_enters_handler (h : s.interrupted i) (hp : s.params.wf) (hpc : s.pc ≤ 255) :
    step s = .next ((s.timerPoll.entered i).jumpTo
      ((s.timerPoll.entered i).mem.get (s.timerPoll.params.vtBase.toNat + i.val))) := by
  obtain ⟨v, hstep⟩ := step_enters h hp hpc
  obtain ⟨_, _, ht⟩ := State.enterInterrupt_ok (enterInterrupt_of_step h hstep)
  rw [hstep, ht]

theorem is_entered (hne : s.params.spReg ≠ s.params.isReg) : (s.entered i).is = s.is &&& ~~~ lineBit i := by
  rw [State.is, State.params_entered, State.reg_entered s i hne, if_neg hne.symm, if_pos rfl]

theorem sp_entered (hne : s.params.spReg ≠ s.params.isReg) : (s.entered i).sp = s.sp - 10#8 := by
  rw [State.sp, State.params_entered, State.reg_entered s i hne, if_pos rfl]

theorem keepsRegistersBut_entered (hne : s.params.spReg ≠ s.params.isReg) :
    KeepsRegistersBut [s.params.isReg, s.params.spReg] s (s.entered i) := by
  intro r hr
  obtain ⟨his, hsp⟩ := List.ne_and_not_mem_of_not_mem_cons hr
  rw [State.reg_entered s i hne, if_neg (List.ne_of_not_mem_cons hsp), if_neg his]

/-- An entry writes no byte but the ten of its frame (R236). -/
theorem get_entered_outside_frame (hne : s.params.spReg ≠ s.params.isReg) {a : Byte}
    (ha : ∀ j, 1 ≤ j → j ≤ 10 → a ≠ s.sp - BitVec.ofNat 8 j) : (s.entered i).mem.get a.toNat = s.mem.get a.toNat := by
  have hone : a ≠ s.sp - 1 := ha 1 (by decide) (by decide)
  have htwo : a ≠ s.sp - 1 - 1 := by
    have h2 := ha 2 (by decide) (by decide)
    bv_omega
  rw [State.get_entered_of_ne s i hne a fun j hj => ha j (by omega),
    Memory.get_set_of_ne _ (BitVec.toNat_inj.not.mpr htwo), Memory.get_set_of_ne _ (BitVec.toNat_inj.not.mpr hone)]

/-- A byte that is more than ten below S, or at S, is none of the ten below S. -/
theorem ne_sub_of_outside {S a : Byte} (h : 10 < (S - a).toNat ∨ a = S) {j : Nat} (hj : 1 ≤ j) (hj' : j ≤ 10) :
    a ≠ S - BitVec.ofNat 8 j := by
  rintro rfl
  have hj256 : (BitVec.ofNat 8 j).toNat = j := by rw [BitVec.toNat_ofNat, Nat.mod_eq_of_lt (by omega)]
  bv_omega

/-- What an entry and the jump to its handler leave outside registers, memory and `pc`: all but IE, which is clear. -/
theorem frame_jumpTo_entered (s : State) (i : Line) (v : Byte) :
    ((s.entered i).jumpTo v).ie = false ∧ ((s.entered i).jumpTo v).fl = s.fl ∧
      ((s.entered i).jumpTo v).elig = s.elig ∧ ((s.entered i).jumpTo v).tacc = s.tacc ∧
      ((s.entered i).jumpTo v).time = s.time ∧ ((s.entered i).jumpTo v).params = s.params ∧
      ((s.entered i).jumpTo v).status = s.status ∧ KeepsOutputs s ((s.entered i).jumpTo v) := by
  simp [KeepsOutputs]

/-- A step that enters an interrupt leaves IE clear (R235). -/
theorem ie_of_interrupted (hi : s.interrupted i) (h : step s = .next t) : t.ie = false := by
  obtain ⟨_, _, rfl⟩ := State.enterInterrupt_ok (enterInterrupt_of_step hi h)
  rw [State.ie_jumpTo, State.ie_entered]

/-- While IE is clear no line is found, whatever is pending (R233). -/
theorem fetches_of_ie_false (hs : s.status = .running) (hie : s.ie = false) : s.fetches :=
  ⟨hs, interruptCheck_of_disabled (.inr (s.ie_timerPoll.trans hie))⟩

/-- What a step can do to IE: nothing; set it, by IRET; or clear it, by an interrupt entry (R30, R239). -/
theorem ie_step (h : step s = .next t) :
    t.ie = s.ie ∨ (s.fetches ∧ Decodes s .iret ∧ t.ie = true) ∨ ((∃ i, s.interrupted i) ∧ t.ie = false) := by
  rcases step_next h with ⟨_, rfl⟩ | ⟨i, hi, _⟩ | ⟨hf, i, hd, ht⟩
  · exact .inl rfl
  · exact .inr (.inr ⟨⟨i, hi⟩, ie_of_interrupted hi h⟩)
  · rcases (exec_frame ht).ie with he | ⟨rfl, he⟩
    · exact .inl (he.trans s.ie_timerPoll)
    · exact .inr (.inl ⟨hf, hd, he⟩)

end

/-! ## The obligations about interrupt entries -/

/-- Settles O28: the entry takes place in the state after the timer poll; the frame is `holdsFrame_entered`. -/
theorem interruptEntrySavesTheFrame : Obligations.InterruptEntrySavesTheFrame := by
  intro s i hi hp
  refine ⟨fun hpc => ?_, fun hpc => ⟨_, step_enters_handler hi hp hpc, ?_⟩⟩
  · rw [step_of_interrupted_of_pc_ge hi hpc.ge, hpc]
  · have hne : s.timerPoll.params.spReg ≠ s.timerPoll.params.isReg := by
      obtain ⟨_, hne, _⟩ := hp
      rwa [State.params_timerPoll]
    obtain ⟨hpcAt, hflAt, _, _⟩ := holdsFrame_entered (i := i) hne (s.pc_timerPoll.trans_le hpc)
    generalize hv : (s.timerPoll.entered i).mem.get (s.timerPoll.params.vtBase.toNat + i.val) = v
    obtain ⟨hie, hfl, helig, htacc, htime, hparams, hstatus, hout, hmsg⟩ := frame_jumpTo_entered s.timerPoll i v
    simp only [State.mem_jumpTo, State.reg_jumpTo, State.pc_jumpTo, State.is_jumpTo, State.sp_jumpTo, hv]
    refine ⟨hie, is_entered hne, sp_entered hne, fun r hr => ?_, hpcAt.trans s.pc_timerPoll,
      hflAt.trans s.fl_timerPoll, State.get_entered _ i hne, fun a ha => ?_, trivial, hfl.trans s.fl_timerPoll, helig,
      htacc, htime, hparams.trans s.params_timerPoll, hstatus.trans s.status_timerPoll, hout.trans s.out_timerPoll,
      hmsg.trans s.msg_timerPoll⟩
    · rw [State.reg_jumpTo]
      exact keepsRegistersBut_entered hne r hr
    · rw [get_entered_outside_frame hne fun _ => ne_sub_of_outside ha, State.mem_timerPoll]

/-- Settles O30: the entry clears IE, and the check reads it. -/
theorem interruptsDoNotNest : Obligations.InterruptsDoNotNest := by
  refine ⟨fun s t i => ie_of_interrupted, fun s i hs hie hd => ?_⟩
  have hf := fetches_of_ie_false hs hie
  exact ⟨hf, step_of_decodes hf hd⟩

/-- Settles O31: `ie_step` names the only two steps that change IE. -/
theorem onlyIretSetsAndOnlyEntryClearsIe : Obligations.OnlyIretSetsAndOnlyEntryClearsIe := by
  intro s t h
  refine ⟨fun hf hd => ?_, fun i hi => ie_of_interrupted hi h, fun h0 h1 => ?_, fun h1 h0 => ?_⟩
  · rw [step_of_decodes hf hd, exec_iret] at h
    obtain ⟨hie, _⟩ := s.timerPoll.returnFromInterrupt_frame
    rwa [← Host.Outcome.next.inj h]
  · rcases ie_step h with he | ⟨hf, hd, _⟩ | ⟨_, he⟩
    · simp [he, h0] at h1
    · exact ⟨hf, hd⟩
    · simp [he] at h1
  · rcases ie_step h with he | ⟨_, _, he⟩ | ⟨hi, _⟩
    · simp [he, h1] at h0
    · simp [he] at h0
    · exact hi

end Sys2Proof.Machine

namespace Sys2Proof.Machine

/-! ## The reset state and a launch (R260, R262) -/

section
variable (p : Params) (image : List Byte) (times : List Seconds)

/-- The registers at reset: SP at its reset value, the others 0 (R260). -/
theorem State.reg_resetWith (r : Reg) : (State.resetWith p).reg r = if r = p.spReg then p.spInit else 0#8 := by
  simp only [State.reg, State.resetWith, Vector.getElem_set, Vector.getElem_replicate, eq_comm (a := r), Fin.ext_iff]

theorem State.sp_resetWith : (State.resetWith p).sp = p.spInit :=
  (State.reg_resetWith p p.spReg).trans (if_pos rfl)

/-- At launch memory holds the image from address 0 on, and zeros after it (R260, R262). -/
theorem State.get_mem_launch {a : Nat} (ha : a < 256) :
    (State.launch p image times).mem.get a = image.getD a 0#8 := by
  have hget := Memory.get_setAll [] 0 image a
  rw [Nat.zero_add, Nat.sub_zero, Memory.get_nil] at hget
  refine hget.trans ?_
  split_ifs with h
  · rfl
  · exact (List.getD_eq_default _ _ (by omega)).symm

/-- The interrupt mask is another register than SP, so it is 0 at launch (R8, R260). -/
theorem State.im_launch (hp : p.wf) : (State.launch p image times).im = 0#8 := by
  obtain ⟨hne, _⟩ := hp
  exact (State.reg_resetWith p p.imReg).trans (if_neg hne.symm)

end

/-- With the mask 0 no line is found, whatever is pending (R233). -/
theorem interruptCheck_of_im_eq_zero {s : State} (h : s.im = 0#8) : s.interruptCheck = none := by
  refine Option.eq_none_iff_forall_ne_some.mpr fun i hi => ?_
  obtain ⟨_, _, him, _⟩ := State.interruptCheck_some hi
  simp [h] at him

/-! ## The obligations about reset -/

/-- Settles O12: the timer poll writes TACC, ELIG and IS, never the mask, and a line must be enabled to be found. -/
theorem noInterruptWhileTheMaskIsZero : Obligations.NoInterruptWhileTheMaskIsZero :=
  ⟨fun p image times hp => ⟨rfl, State.im_launch p image times hp, rfl⟩,
    fun _ hp him => interruptCheck_of_im_eq_zero ((im_timerPoll hp).trans him)⟩

/-- Settles O10: at reset memory lists no cell, TACC is the fraction 0/1, and no time input is given. -/
theorem resetMeetsTheInvariant : Obligations.ResetMeetsTheInvariant :=
  ⟨Memory.wf_nil, Nat.zero_le 256, by decide, fun _ ht => absurd ht List.not_mem_nil, Params.wf_admitting⟩

/-- Settles O11: the registers by `State.reg_resetWith`, the image by `State.get_mem_launch`; the other fields are as
`State.resetWith` gives them. -/
theorem resetStateIsTheSpecs : Obligations.ResetStateIsTheSpecs := by
  refine ⟨fun p => ⟨fun r hr => ?_, State.sp_resetWith p, rfl, rfl, Memory.get_nil, rfl, rfl, ?_, rfl, rfl, rfl,
    fun image times a ha => State.get_mem_launch p image times ha⟩, State.sp_resetWith Params.admitting⟩
  · rw [State.reg_resetWith, if_neg hr]
  · simp [Seconds.toRat, State.resetWith]

end Sys2Proof.Machine
